-- ==== Sys2Proof/Syntax.lean ====
section
/-! DEFINITION. The commands of the XBC engine: one constructor per row of spec/opcode_table.json
(spec/30_encoding.md R86). An immediate is a number; WellFormed.lean bounds it (R85, R90). -/

namespace Sys2Proof

/-- `CT`: the chunk storage type of CHUNKS (R84). -/
inductive ChunkType where
  | u8
  | u16
  | u32
  | u64
deriving DecidableEq, Repr

/-- The 27 commands (R86). A is always the receiver, B the second operand and S the stream (R85). -/
inductive Instr where
  /-- `SHL n`: shift A left (R101). -/
  | shl (n : Nat)
  /-- `SHR n`: shift A right (R102). -/
  | shr (n : Nat)
  /-- `REV`: reverse the bit sequence of A (R103). -/
  | rev
  /-- `NOT`: complement A (R104). -/
  | not
  /-- `BEAND`: big-endian AND of B into A (R105). -/
  | beand
  /-- `BEOR`: big-endian OR of B into A (R106). -/
  | beor
  /-- `BEXOR`: big-endian XOR of B into A (R107). -/
  | bexor
  /-- `LEAND`: little-endian AND of B into A (R108). -/
  | leand
  /-- `LEOR`: little-endian OR of B into A (R109). -/
  | leor
  /-- `LEXOR`: little-endian XOR of B into A (R110). -/
  | lexor
  /-- `ALLZ`: is A all zero (R111). -/
  | allz
  /-- `ALLO`: is A all ones (R112). -/
  | allo
  /-- `LZC`: count leading zeros of A (R113). -/
  | lzc
  /-- `TZC`: count trailing zeros of A (R114). -/
  | tzc
  /-- `BITS`: write the bit sequence of A into S (R151). -/
  | bits
  /-- `BITGET k`: read one bit of A (R152). -/
  | bitget (k : Nat)
  /-- `CHUNKS n, CT`: regroup the bits of A into chunks in S (R153). -/
  | chunks (n : Nat) (ct : ChunkType)
  /-- `FROMBITS`: pack a bit sequence from S into A (R154). -/
  | frombits
  /-- `FROMCHUNKS n`: pack chunks from S into A (R155). -/
  | fromchunks (n : Nat)
  /-- `CMP`: compare A with B (R181). -/
  | cmp
  /-- `ADD`: add B into A (R182). -/
  | add
  /-- `SUB`: subtract B from A (R183). -/
  | sub
  /-- `MUL`: multiply A by B (R184). -/
  | mul
  /-- `DIV`: divide A by B (R186). -/
  | div
  /-- `REM`: remainder of A by B (R187). -/
  | rem
  /-- `MOVAB`: copy A into B (R220). -/
  | movab
  /-- `SWAP`: exchange A and B (R221). -/
  | swap
deriving DecidableEq, Repr

/-- The mnemonics of spec/opcode_table.json, one per row (R86). -/
inductive Mnemonic where
  | shl | shr | rev | not | beand | beor | bexor | leand | leor | lexor | allz | allo | lzc | tzc
  | bits | bitget | chunks | frombits | fromchunks
  | cmp | add | sub | mul | div | rem
  | movab | swap
deriving DecidableEq, Repr

/-- The row of the opcode table that a command belongs to (R86). -/
def Instr.mnemonic : Instr → Mnemonic
  | .shl _ => .shl
  | .shr _ => .shr
  | .rev => .rev
  | .not => .not
  | .beand => .beand
  | .beor => .beor
  | .bexor => .bexor
  | .leand => .leand
  | .leor => .leor
  | .lexor => .lexor
  | .allz => .allz
  | .allo => .allo
  | .lzc => .lzc
  | .tzc => .tzc
  | .bits => .bits
  | .bitget _ => .bitget
  | .chunks _ _ => .chunks
  | .frombits => .frombits
  | .fromchunks _ => .fromchunks
  | .cmp => .cmp
  | .add => .add
  | .sub => .sub
  | .mul => .mul
  | .div => .div
  | .rem => .rem
  | .movab => .movab
  | .swap => .swap

end Sys2Proof
end

