-- ==== Sys2Proof/WellFormed.lean ====
section
/-! DEFINITION. Which terms of `Instr` are commands: an immediate is a number from 0 to 65535
(spec/30_encoding.md R85, R90: "An operand outside that range is an assembly error, not a word"). The
range checks of CHUNKS, FROMCHUNKS and BITGET belong to execution, not to form (R85). -/

namespace Sys2Proof

/-- An operand that fits the 16-bit field `IMM` (R85, R90). -/
def immFits (n : Nat) : Bool := decide (n < 65536)

/-- The command has a command word (R90). -/
def Instr.wf : Instr → Bool
  | .shl n => immFits n
  | .shr n => immFits n
  | .rev => true
  | .not => true
  | .beand => true
  | .beor => true
  | .bexor => true
  | .leand => true
  | .leor => true
  | .lexor => true
  | .allz => true
  | .allo => true
  | .lzc => true
  | .tzc => true
  | .bits => true
  | .bitget k => immFits k
  | .chunks n _ => immFits n
  | .frombits => true
  | .fromchunks n => immFits n
  | .cmp => true
  | .add => true
  | .sub => true
  | .mul => true
  | .div => true
  | .rem => true
  | .movab => true
  | .swap => true

end Sys2Proof
end

