-- ==== Sys2Proof/Word.lean ====
section
/-! DEFINITION. The word types of the XBC engine (spec/10_state.md R20). -/

namespace Sys2Proof

/-- One byte of operand buffer A or B (R20). -/
abbrev Byte := BitVec 8

/-- One 32-bit word of the host port: a command word, a register or a window word (R60, R80). -/
abbrev Word := BitVec 32

/-- One 64-bit element of stream buffer S, and the width of RES (R20). -/
abbrev Dword := BitVec 64

end Sys2Proof
end

