-- ==== Sys2Proof/Decode.lean ====
section
/-! DEFINITION. Decoding and encoding of command words (spec/30_encoding.md). A command is one 32-bit
integer, the data of a CMD write (R80), so the decoder takes that word; it is total (R89) and rejects by name (R87). -/

namespace Sys2Proof

/-- Why a word is illegal: the four cases of R87. -/
inductive Illegal where
  /-- `OP` is not in the table of R86. -/
  | unassignedOp
  /-- Format F0 with `word[31:8] != 0`. -/
  | nonzeroAboveOp
  /-- Format FI with `word[15:8] != 0`. -/
  | nonzeroSub
  /-- Format FC with `word[15:10] != 0`. -/
  | nonzeroSubAboveCT
deriving DecidableEq, Repr

/-- The field `OP`, bits 7:0 (R81). -/
def opField (w : Word) : Nat := (w.extractLsb' 0 8).toNat

/-- The field `SUB`, bits 15:8 (R81). -/
def subField (w : Word) : Nat := (w.extractLsb' 8 8).toNat

/-- The field `IMM`, bits 31:16, an unsigned number (R81, R85). -/
def immField (w : Word) : Nat := (w.extractLsb' 16 16).toNat

/-- The chunk storage type that `CT` selects (R84). -/
def chunkTypeOfCode : Nat → ChunkType
  | 0 => .u8
  | 1 => .u16
  | 2 => .u32
  | _ => .u64

/-- The value of `CT` for a chunk storage type (R84). -/
def ChunkType.code : ChunkType → Nat
  | .u8 => 0
  | .u16 => 1
  | .u32 => 2
  | .u64 => 3

/-- Format F0 (R82): the bits above `OP` are zero. -/
def decodeF0 (w : Word) (i : Instr) : Except Illegal Instr :=
  if immField w = 0 ∧ subField w = 0 then .ok i else .error .nonzeroAboveOp

/-- Format FI (R83): `IMM` is the operand and `SUB` is zero. -/
def decodeFI (w : Word) (i : Nat → Instr) : Except Illegal Instr :=
  if subField w = 0 then .ok (i (immField w)) else .error .nonzeroSub

/-- Format FC (R84): `IMM` is the chunk width, `SUB[1:0]` is `CT` and `SUB[7:2]` is zero. -/
def decodeFC (w : Word) (i : Nat → ChunkType → Instr) : Except Illegal Instr :=
  if subField w / 4 = 0 then .ok (i (immField w) (chunkTypeOfCode (subField w % 4)))
  else .error .nonzeroSubAboveCT

/-- The decode procedure of R89, total on every word. -/
def decode (w : Word) : Except Illegal Instr :=
  match opField w with
  | 0x10 => decodeFI w .shl
  | 0x11 => decodeFI w .shr
  | 0x12 => decodeF0 w .rev
  | 0x13 => decodeF0 w .not
  | 0x14 => decodeF0 w .beand
  | 0x15 => decodeF0 w .beor
  | 0x16 => decodeF0 w .bexor
  | 0x17 => decodeF0 w .leand
  | 0x18 => decodeF0 w .leor
  | 0x19 => decodeF0 w .lexor
  | 0x1A => decodeF0 w .allz
  | 0x1B => decodeF0 w .allo
  | 0x1C => decodeF0 w .lzc
  | 0x1D => decodeF0 w .tzc
  | 0x20 => decodeF0 w .bits
  | 0x21 => decodeFI w .bitget
  | 0x22 => decodeFC w .chunks
  | 0x23 => decodeF0 w .frombits
  | 0x24 => decodeFI w .fromchunks
  | 0x30 => decodeF0 w .cmp
  | 0x31 => decodeF0 w .add
  | 0x32 => decodeF0 w .sub
  | 0x33 => decodeF0 w .mul
  | 0x34 => decodeF0 w .div
  | 0x35 => decodeF0 w .rem
  | 0x40 => decodeF0 w .movab
  | 0x41 => decodeF0 w .swap
  | _ => .error .unassignedOp

/-- The opcode `OP` of each mnemonic (R86). -/
def Mnemonic.op : Mnemonic → Nat
  | .shl => 0x10
  | .shr => 0x11
  | .rev => 0x12
  | .not => 0x13
  | .beand => 0x14
  | .beor => 0x15
  | .bexor => 0x16
  | .leand => 0x17
  | .leor => 0x18
  | .lexor => 0x19
  | .allz => 0x1A
  | .allo => 0x1B
  | .lzc => 0x1C
  | .tzc => 0x1D
  | .bits => 0x20
  | .bitget => 0x21
  | .chunks => 0x22
  | .frombits => 0x23
  | .fromchunks => 0x24
  | .cmp => 0x30
  | .add => 0x31
  | .sub => 0x32
  | .mul => 0x33
  | .div => 0x34
  | .rem => 0x35
  | .movab => 0x40
  | .swap => 0x41

/-- The three formats (R82, R83, R84). -/
inductive Format where
  | f0
  | fi
  | fc
deriving DecidableEq, Repr

/-- The format of each mnemonic (R86). -/
def Mnemonic.format : Mnemonic → Format
  | .shl | .shr | .bitget | .fromchunks => .fi
  | .chunks => .fc
  | .rev | .not | .beand | .beor | .bexor | .leand | .leor | .lexor | .allz | .allo | .lzc | .tzc
  | .bits | .frombits | .cmp | .add | .sub | .mul | .div | .rem | .movab | .swap => .f0

/-- The `mask` column of spec/opcode_table.json: the bits a format fixes. -/
def Mnemonic.mask (m : Mnemonic) : Word :=
  match m.format with
  | .f0 => 0xFFFFFFFF#32
  | .fi => 0x0000FFFF#32
  | .fc => 0x0000FCFF#32

/-- The `match` column of spec/opcode_table.json: the value of the fixed bits. -/
def Mnemonic.pattern (m : Mnemonic) : Word := BitVec.ofNat 32 m.op

/-- A command word from its fields: `(IMM << 16) | (SUB << 8) | OP` (R81, R90). -/
def fieldsWord (imm sub op : Nat) : Word := BitVec.ofNat 32 (imm * 2 ^ 16 + sub * 2 ^ 8 + op)

/-- The command word of a well-formed command (R82, R83, R84, R90). -/
def encode (i : Instr) : Word :=
  match i with
  | .shl n => fieldsWord n 0 i.mnemonic.op
  | .shr n => fieldsWord n 0 i.mnemonic.op
  | .rev => fieldsWord 0 0 i.mnemonic.op
  | .not => fieldsWord 0 0 i.mnemonic.op
  | .beand => fieldsWord 0 0 i.mnemonic.op
  | .beor => fieldsWord 0 0 i.mnemonic.op
  | .bexor => fieldsWord 0 0 i.mnemonic.op
  | .leand => fieldsWord 0 0 i.mnemonic.op
  | .leor => fieldsWord 0 0 i.mnemonic.op
  | .lexor => fieldsWord 0 0 i.mnemonic.op
  | .allz => fieldsWord 0 0 i.mnemonic.op
  | .allo => fieldsWord 0 0 i.mnemonic.op
  | .lzc => fieldsWord 0 0 i.mnemonic.op
  | .tzc => fieldsWord 0 0 i.mnemonic.op
  | .bits => fieldsWord 0 0 i.mnemonic.op
  | .bitget k => fieldsWord k 0 i.mnemonic.op
  | .chunks n ct => fieldsWord n ct.code i.mnemonic.op
  | .frombits => fieldsWord 0 0 i.mnemonic.op
  | .fromchunks n => fieldsWord n 0 i.mnemonic.op
  | .cmp => fieldsWord 0 0 i.mnemonic.op
  | .add => fieldsWord 0 0 i.mnemonic.op
  | .sub => fieldsWord 0 0 i.mnemonic.op
  | .mul => fieldsWord 0 0 i.mnemonic.op
  | .div => fieldsWord 0 0 i.mnemonic.op
  | .rem => fieldsWord 0 0 i.mnemonic.op
  | .movab => fieldsWord 0 0 i.mnemonic.op
  | .swap => fieldsWord 0 0 i.mnemonic.op

/-- The command the decoder reads from a row of the opcode table: `w` cut to the row's `nbits` bits and
extended with zeros to the one 32-bit command word. -/
def decodeTableWord (nbits w : Nat) : Option Instr :=
  match decode (BitVec.ofNat 32 (w % 2 ^ nbits)) with
  | .ok i => some i
  | .error _ => none

end Sys2Proof
end

