-- ==== Sys2Proof/Config.lean ====
section
/-! DEFINITION. The implementation parameters of spec/00_scope.md R6. They are fixed for one machine; the
state carries them (`State.cfg`) so that a statement about every state covers every value of them. -/

namespace Sys2Proof

/-- `CHUNK_TAIL`: what CHUNKS does with a final partial chunk (R6, R157). -/
inductive ChunkTail where
  /-- The spec's value: the last chunk is produced, its missing low-order bits zero. -/
  | pad
  /-- The named alternative: the trailing bits are dropped. -/
  | drop
deriving DecidableEq, Repr

/-- The parameters of R6; `MAXS` is computed from `maxlen`. -/
structure Params where
  /-- `MAXLEN`: capacity of buffer A and of buffer B, in bytes. -/
  maxlen : Nat
  /-- `CHUNK_TAIL`. -/
  tail : ChunkTail
  /-- `XBC_BASE`: the host address of window offset 0. -/
  base : Nat
deriving DecidableEq, Repr

/-- `MAXS = 8 * MAXLEN` (R6). -/
def Params.maxs (p : Params) : Nat := 8 * p.maxlen

/-- R6: `1 <= MAXLEN <= 4096`. -/
def Params.legal (p : Params) : Bool := decide (1 ≤ p.maxlen) && decide (p.maxlen ≤ 4096)

/-- The parameters of the reset state: the reference MAXLEN and the spec's CHUNK_TAIL (R6).
DESIGN CHOICE: `maxlen := 64` and `base := 0` (log entries 1 and 3). -/
def Params.reference : Params := { maxlen := 64, tail := .pad, base := 0 }

end Sys2Proof
end

