-- ==== Sys2Proof/Machine/State.lean ====
section
/-! DEFINITION. The state of the XBC engine (spec/10_state.md R20), the events a host and the platform put
to it, the reasons the model can stop, and the reset state (R37, spec/70_reset_and_hazards.md R260). -/

namespace Sys2Proof.Machine

/-- A storage of words of `w` bits by position: pairs (position, value), positions strictly rising, no value
zero. A position not listed reads 0, its reset value (R37; DEDUCED, log entry 10). `Memory 8` is a list of
`Host.Cell`. -/
abbrev Memory (w : Nat) := List (Nat × BitVec w)

/-- The fault codes of spec/60_exceptions.md R232 that a fault can carry. -/
inductive FaultCode where
  /-- Code 1: the command word is illegal (R87). -/
  | illegalCmd
  /-- Code 2: a chunk width out of range (R153, R155). -/
  | chunkWidth
  /-- Code 3: BITGET past the end of A (R152). -/
  | bitIndex
  /-- Code 4: BEOR with B shorter than A (R106). -/
  | operandLength
  /-- Code 5: FROMCHUNKS with a result longer than MAXLEN (R155). -/
  | capacity
  /-- Code 6: a length written above its capacity (R55). -/
  | lenRange
deriving DecidableEq, Repr

/-- What reaches the engine from outside, one at a time and in order (spec/20_memory.md R63): a host access
of the window, or a change of the RST input (R260). DESIGN CHOICE: `master` is 0 for the one host (R65, log
entry 8). `size` is the access width in bytes (R56). -/
inductive HostEvent where
  /-- A read of `size` bytes at host address `addr`. -/
  | read (master addr size : Nat)
  /-- A write of `size` bytes at host address `addr`; `data` is the 32-bit word of a 32-bit access. -/
  | write (master addr size : Nat) (data : Word)
  /-- RST is driven to a level: `true` asserted, `false` released. -/
  | rst (level : Bool)
deriving DecidableEq, Repr

/-- The state of the engine: every item of R20, then the model's own fields. -/
structure State where
  /-- `A[0..MAXLEN-1]`: operand buffer A, the receiver (R21). -/
  bufA : Memory 8
  /-- `LEN_A` (R26). -/
  lenA : BitVec 16
  /-- `B[0..MAXLEN-1]`: operand buffer B (R22). -/
  bufB : Memory 8
  /-- `LEN_B` (R26). -/
  lenB : BitVec 16
  /-- `S[0..MAXS-1]`: stream buffer S (R23). -/
  bufS : Memory 64
  /-- `LEN_S` (R26). -/
  lenS : BitVec 16
  /-- `FLAG` (R27). -/
  flag : Bool
  /-- `RES` (R28). -/
  res : Dword
  /-- `FAULT`: the engine is in the faulted state (R30). -/
  fault : Bool
  /-- `FCODE` (R30, R232). -/
  fcode : BitVec 4
  /-- `FINFO0` (R30, R234). -/
  finfo0 : Word
  /-- `FINFO1` (R30, R234). -/
  finfo1 : Word
  /-- The model's own: the implementation parameters of R6, which no step changes (DESIGN CHOICE, log
  entries 1 to 3). -/
  cfg : Params
  /-- The model's own: the level of the RST input (R260; DEDUCED, log entry 6). -/
  rst : Bool
  /-- The model's own: the events not yet performed, oldest first (R63; DESIGN CHOICE, log entry 4). -/
  pending : List HostEvent
  /-- The model's own: the word the last performed host read returned (DESIGN CHOICE, log entry 5). -/
  rdata : Option Word
deriving DecidableEq, Repr

/-- Why a step stops with a fault. A contract violation of R230 is NOT one: it leads to a next state with
`fault` set. -/
inductive Fault where
  /-- Raised by a host access whose address lies outside the window's `0x80000` bytes (R50), so that the
  engine has no such address (DESIGN CHOICE, log entry 7). Safe: nothing is asserted about it. -/
  | outsideWindow
deriving DecidableEq, Repr

/-- Why a step refuses: the accesses to which the spec gives no meaning and which it tells a model to
refuse. No command is refused. -/
inductive Refusal where
  /-- Raised only by an arm of `exec` that has no meaning yet; there is none. Safe. -/
  | notModelled (mnemonic : String)
  /-- Raised by a host access while RST is asserted (R260: "the host window accepts no access"). Safe. -/
  | accessInReset
  /-- Raised by an access of a second master (R65: "A model admits one host agent and refuses a second"). Safe. -/
  | secondHost
  /-- Raised by an access whose width is not 32 bits (R56). Safe. -/
  | badWidth
  /-- Raised by an access whose offset is not a multiple of 4 (R56). Safe. -/
  | misaligned
  /-- Raised by an access at a reserved offset or past a window's capacity (R56). Safe. -/
  | unmappedOffset
deriving DecidableEq, Repr

/-- The engine right after reset (R37, R260): every item of R20 is zero. The parameters are the reference
ones, RST is released, and the host has issued nothing. -/
def State.reset : State :=
  { bufA := [], lenA := 0#16, bufB := [], lenB := 0#16, bufS := [], lenS := 0#16
    flag := false, res := 0#64
    fault := false, fcode := 0#4, finfo0 := 0#32, finfo1 := 0#32
    cfg := Params.reference, rst := false, pending := [], rdata := none }

end Sys2Proof.Machine
end

