-- ==== Sys2Proof/Machine/Ops.lean ====
section
/-! DEFINITION. The shared operations over buffers and registers, taking a fault (spec/60_exceptions.md
R233) and leaving the faulted state by reset (R236, spec/70_reset_and_hazards.md R260). -/

namespace Sys2Proof.Machine

/-! ## Storage -/

/-- The value at a position; 0 where nothing is listed (R37: every position resets to 0). -/
def Memory.read {w : Nat} : Memory w → Nat → BitVec w
  | [], _ => 0#w
  | (k, v) :: m, i => if k = i then v else Memory.read m i

/-- The listing of one position: none for the value an unlisted position reads as. -/
def Memory.cell {w : Nat} (i : Nat) (v : BitVec w) : Option (Nat × BitVec w) :=
  if v = 0#w then none else some (i, v)

/-- Positions `0..n-1` take the values of `f`; every other position keeps its value (R25). -/
def Memory.fill {w : Nat} (m : Memory w) (n : Nat) (f : Nat → BitVec w) : Memory w :=
  (List.range n).filterMap (fun i => Memory.cell i (f i)) ++ m.filter (fun c => decide (n ≤ c.1))

/-- One position takes a value; every other position keeps its value (R52, R53, R54). -/
def Memory.write {w : Nat} (m : Memory w) (i : Nat) (v : BitVec w) : Memory w :=
  m.filter (fun c => decide (c.1 < i)) ++ (Memory.cell i v).toList
    ++ m.filter (fun c => decide (i < c.1))

/-- The canonical form: positions strictly rising and no value listed that an unlisted position reads as. -/
def Memory.wf {w : Nat} (m : Memory w) : Bool :=
  decide (m.Pairwise (fun c d => c.1 < d.1)) && m.all (fun c => decide (c.2 ≠ 0#w))

/-- Every listed position lies below a capacity. -/
def Memory.within {w : Nat} (m : Memory w) (cap : Nat) : Bool := m.all (fun c => decide (c.1 < cap))

/-! ## Completing a command -/

/-- A command that completes writes FLAG exactly once (R27). -/
def complete (flag : Bool) (s : State) : Host.Outcome State Fault Refusal :=
  .next { s with flag := flag }

/-- `A[i] <- f i` for `i` below `LEN_A` (R100, R180): LEN_A and the bytes beyond it are kept (R25). -/
def State.storeA (s : State) (f : Nat → Byte) : State :=
  { s with bufA := s.bufA.fill s.lenA.toNat f }

/-- A new buffer of `n` bytes in A: `A[i] <- f i` for `i < n`, `LEN_A <- n` (R154, R155; log entry 17). -/
def State.newA (s : State) (n : Nat) (f : Nat → Byte) : State :=
  { s with bufA := s.bufA.fill n f, lenA := BitVec.ofNat 16 n }

/-- A new sequence of `n` elements in S: `S[j] <- f j` for `j < n`, `LEN_S <- n` (R151, R153; log entry 17). -/
def State.newS (s : State) (n : Nat) (f : Nat → Dword) : State :=
  { s with bufS := s.bufS.fill n f, lenS := BitVec.ofNat 16 n }

/-- `RES <- v` (R28). -/
def State.setRes (s : State) (v : Dword) : State := { s with res := v }

/-! ## Faults -/

/-- The value of FCODE for a fault (R232). -/
def FaultCode.code : FaultCode → BitVec 4
  | .illegalCmd => 1#4
  | .chunkWidth => 2#4
  | .bitIndex => 3#4
  | .operandLength => 4#4
  | .capacity => 5#4
  | .lenRange => 6#4

/-- Fault entry (R233): FAULT, FCODE, FINFO0 and FINFO1 are written and nothing else. -/
def State.enterFault (s : State) (c : FaultCode) (i0 i1 : Word) : State :=
  { s with fault := true, fcode := c.code, finfo0 := i0, finfo1 := i1 }

/-- Raise a fault (R233): the access has no other effect. -/
def raiseFault (c : FaultCode) (i0 i1 : Word) (s : State) : Host.Outcome State Fault Refusal :=
  .next (s.enterFault c i0 i1)

/-- The window offset of CMD (R51), which FINFO1 holds after a command fault (R234). -/
def cmdOffset : Nat := 0x00004

/-- Raise a fault of a command (R234): FINFO0 is the command word, FINFO1 the offset of CMD. DEDUCED: the
word is `encode i`, since a legal word is the encoding of what it decodes to (R88; log entry 11). -/
def commandFault (c : FaultCode) (i : Instr) (s : State) : Host.Outcome State Fault Refusal :=
  raiseFault c (encode i) (BitVec.ofNat 32 cmdOffset) s

/-! ## Reset -/

/-- RST is released (R260): every item of R20 takes its reset value (R37). The parameters, the events the
host still has to put and the word it last read are not the engine's items and stay (log entry 6). -/
def State.afterReset (s : State) : State :=
  { State.reset with cfg := s.cfg, pending := s.pending, rdata := s.rdata }

/-- RST is driven to a level (R260). Releasing an asserted RST resets; driving it to the level it has
changes nothing (DEDUCED, log entry 6). -/
def State.driveRst (s : State) (level : Bool) : State :=
  if s.rst && !level then s.afterReset else { s with rst := level }

end Sys2Proof.Machine
end

