-- ==== Sys2Proof/Machine/Operands.lean ====
section
/-! DEFINITION. What the commands read: lengths, integer values, bits, pairs of bytes and chunks
(spec/00_scope.md R8 to R10, spec/41_bitwise.md R116 and R117, spec/42_bit_codec.md). -/

namespace Sys2Proof.Machine

/-! ## Lengths and widths -/

/-- `LA`: the current length of A in bytes (R10). -/
def State.lengthA (s : State) : Nat := s.lenA.toNat

/-- `LB`: the current length of B in bytes (R10). -/
def State.lengthB (s : State) : Nat := s.lenB.toNat

/-- `LS`: the current length of S in elements (R10). -/
def State.lengthS (s : State) : Nat := s.lenS.toNat

/-- `W = 8 * LA`: the width of an operation on A (R21, R100). -/
def State.widthA (s : State) : Nat := 8 * s.lengthA

/-! ## Integers -/

/-- `valBE(X, L)`: the first `L` bytes as an unsigned big-endian integer (R9). -/
def valBE (m : Memory 8) : Nat → Nat
  | 0 => 0
  | n + 1 => valBE m n * 256 + (m.read n).toNat

/-- Byte `i` of `bytesBE(v, L)` (R9). -/
def bytesBE (v L i : Nat) : Byte := BitVec.ofNat 8 (v / 2 ^ (8 * (L - 1 - i)))

/-- `a = valBE(A, LA)` (R180; `v` of R100). -/
def State.valA (s : State) : Nat := valBE s.bufA s.lengthA

/-- `b = valBE(B, LB)` (R180). -/
def State.valB (s : State) : Nat := valBE s.bufB s.lengthB

/-- `A[0..LA-1] <- bytesBE(v, LA)` (R100, R180). -/
def State.storeValueA (s : State) (v : Nat) : State := s.storeA (bytesBE v s.lengthA)

/-- `lz(v, W)`: leading zero bits of `v` as a `W`-bit value (R10). -/
def leadingZeros (v : Nat) : Nat → Nat
  | 0 => 0
  | w + 1 => if v.testBit w then 0 else 1 + leadingZeros v w

/-- `tz(v, W)`: trailing zero bits of `v` as a `W`-bit value (R10). -/
def trailingZeros (v : Nat) : Nat → Nat
  | 0 => 0
  | w + 1 => if v % 2 = 1 then 0 else 1 + trailingZeros (v / 2) w

/-- `bitlen(v)`: the smallest `k` with `v < 2^k` (R10). -/
def bitlen (v : Nat) : Nat := if v = 0 then 0 else Nat.log2 v + 1

/-! ## Bit sequences -/

/-- `bit(X, L, j)` for a position inside the buffer: position 0 is bit 7 of byte 0 (R8). -/
def bitAt (m : Memory 8) (j : Nat) : Bool := (m.read (j / 8)).getLsbD (7 - j % 8)

/-- `bx(p)` of R153: a bit of A, and 0 past its end. -/
def State.bitOrZero (s : State) (p : Nat) : Bool := decide (p < s.widthA) && bitAt s.bufA p

/-- `n` bits packed most significant first: the sum of `f t * 2^(n-1-t)` over `t < n` (R150). -/
def packMsb (f : Nat → Bool) : Nat → Nat
  | 0 => 0
  | n + 1 => 2 * packMsb f n + (f n).toNat

/-- Byte `i` of a bit sequence: its bits `8i .. 8i+7`, most significant first (R103, R154, R155). -/
def packByte (f : Nat → Bool) (i : Nat) : Byte :=
  BitVec.ofNat 8 (packMsb (fun t => f (8 * i + t)) 8)

/-! ## Pairs of bytes -/

/-- The partner of `A[i]` in a big-endian command: `B[k]` with `k = i - LA + LB`, if `k >= 0` (R116). -/
def State.partnerBE (s : State) (i : Nat) : Option Byte :=
  if s.lengthA ≤ i + s.lengthB then some (s.bufB.read (i + s.lengthB - s.lengthA)) else none

/-- The partner of `A[i]` in a little-endian command: `B[i]`, if `i < LB` (R117). -/
def State.partnerLE (s : State) (i : Nat) : Option Byte :=
  if i < s.lengthB then some (s.bufB.read i) else none

/-- AND with a partner; a byte without one becomes 0 (R105, R108). -/
def andPartner (x : Byte) : Option Byte → Byte
  | some y => x &&& y
  | none => 0#8

/-- OR with a partner; a byte without one is kept (R106, R109). -/
def orPartner (x : Byte) : Option Byte → Byte
  | some y => x ||| y
  | none => x

/-- XOR with a partner; a byte without one is kept (R107, R110). -/
def xorPartner (x : Byte) : Option Byte → Byte
  | some y => x ^^^ y
  | none => x

/-! ## Chunks -/

/-- `TW`: the width of a chunk storage type (R84). -/
def ChunkType.width : ChunkType → Nat
  | .u8 => 8
  | .u16 => 16
  | .u32 => 32
  | .u64 => 64

/-- `K`: how many chunks of width `n` CHUNKS makes of `W` bits (R153, R157). -/
def chunkCount (tail : ChunkTail) (W n : Nat) : Nat :=
  match tail with
  | .drop => W / n
  | .pad => (W + n - 1) / n

/-- The value of chunk `c` of width `n` (R153). -/
def State.chunkOfA (s : State) (n c : Nat) : Nat := packMsb (fun t => s.bitOrZero (c * n + t)) n

/-- `bs(p)` of R154: the boolean of element `p`, and 0 past the end of the sequence. -/
def State.streamBit (s : State) (p : Nat) : Bool :=
  decide (p < s.lengthS) && (s.bufS.read p).getLsbD 0

/-- `cb(p)` of R155: bit `p` of the concatenated chunks of width `n`, and 0 past their end. -/
def State.chunkBit (s : State) (n p : Nat) : Bool :=
  decide (p < s.lengthS * n) && ((s.bufS.read (p / n)).toNat % 2 ^ n).testBit (n - 1 - p % n)

/-- `Lnew` of R154 and R155: the bytes that hold a count of bits. -/
def bytesForBits (T : Nat) : Nat := (T + 7) / 8

/-- `n < 1 or n > min(TW, 32)`: the chunk width is out of range for CHUNKS (R153). -/
def badChunkWidth (n : Nat) (ct : ChunkType) : Bool :=
  decide (n < 1) || decide (min (ChunkType.width ct) 32 < n)

/-- `n < 1 or n > 32`: the chunk width is out of range for FROMCHUNKS (R155). -/
def badPackWidth (n : Nat) : Bool := decide (n < 1) || decide (32 < n)

/-! ## Orderings -/

/-- The RES pattern of an ordering (R29): Less, Equal, Greater. -/
def orderingCode (a b : Nat) : Dword :=
  if a < b then 0xFFFFFFFFFFFFFFFF#64 else if a = b then 0#64 else 1#64

end Sys2Proof.Machine
end

