-- ==== Sys2Proof/Machine/Flags.lean ====
section
/-! DEFINITION. The results of shifts and multiplication and every FLAG computation
(spec/10_state.md R27, spec/41_bitwise.md R101 and R102, spec/43_arithmetic.md R182 to R187). -/

namespace Sys2Proof.Machine

/-- The value SHL leaves in `W` bits (R101). -/
def shlValue (v W n : Nat) : Nat := if W ≤ n then 0 else (v * 2 ^ n) % 2 ^ W

/-- The overflow SHL reports: `n >= W`, or a 1 bit was shifted out (R101). -/
def shlOverflow (v W n : Nat) : Bool := if W ≤ n then true else decide (v / 2 ^ (W - n) ≠ 0)

/-- The value SHR leaves in `W` bits (R102). -/
def shrValue (v W n : Nat) : Nat := if W ≤ n then 0 else v / 2 ^ n

/-- The overflow SHR reports: `n >= W`, or a 1 bit was shifted out (R102). -/
def shrOverflow (v W n : Nat) : Bool := if W ≤ n then true else decide (v % 2 ^ n ≠ 0)

/-- The carry out of ADD: the sum does not fit in `W` bits (R182). -/
def addCarry (a b W : Nat) : Bool := decide (2 ^ W ≤ a + b)

/-- The borrow out of SUB: `a < b` (R183). -/
def subBorrow (a b : Nat) : Bool := decide (a < b)

/-- `(a - b) mod 2^W`, the difference taken as an integer and then reduced (R183). -/
def subValue (a b W : Nat) : Nat := (((a : Int) - (b : Int)) % ((2 ^ W : Nat) : Int)).toNat

/-- One set bit of the multiplier at position `i`: shift `a`, then accumulate, keeping any overflow (R184). -/
def mulStep (a W i : Nat) (st : Nat × Bool) : Nat × Bool :=
  let t := shlValue a W i
  ((st.1 + t) % 2 ^ W, st.2 || shlOverflow a W i || addCarry st.1 t W)

/-- The shift-and-add loop over bits `i - 1` down to 0 of the multiplier (R184). -/
def mulLoop (a b W : Nat) : Nat → Nat × Bool → Nat × Bool
  | 0, st => st
  | i + 1, st => mulLoop a b W i (if b.testBit i then mulStep a W i st else st)

/-- The accumulator and overflow of MUL for a multiplier of `n` bits (R184). -/
def mulResult (a b W n : Nat) : Nat × Bool := mulLoop a b W n (0, false)

end Sys2Proof.Machine
end

