-- ==== Sys2Proof/Machine/Arithmetic.lean ====
section
/-! DEFINITION. The meanings of the Arithmetic Engine commands (spec/43_arithmetic.md). They write at most
`A[0..LA-1]`, FLAG and, for CMP, RES; none of them faults (R180). -/

namespace Sys2Proof.Machine

/-- CMP (R181): A is not written. -/
def execCmp (s : State) : Host.Outcome State Fault Refusal :=
  complete false (s.setRes (orderingCode s.valA s.valB))

/-- ADD (R182). -/
def execAdd (s : State) : Host.Outcome State Fault Refusal :=
  complete (addCarry s.valA s.valB s.widthA)
    (s.storeValueA ((s.valA + s.valB) % 2 ^ s.widthA))

/-- SUB (R183). -/
def execSub (s : State) : Host.Outcome State Fault Refusal :=
  complete (subBorrow s.valA s.valB) (s.storeValueA (subValue s.valA s.valB s.widthA))

/-- MUL (R184): the shift-and-add loop over the `8 * LB` bits of B. -/
def execMul (s : State) : Host.Outcome State Fault Refusal :=
  complete (mulResult s.valA s.valB s.widthA (8 * s.lengthB)).2
    (s.storeValueA (mulResult s.valA s.valB s.widthA (8 * s.lengthB)).1)

/-- DIV (R186): a zero divisor sets FLAG and leaves A unchanged. -/
def execDiv (s : State) : Host.Outcome State Fault Refusal :=
  if s.valB = 0 then complete true s else complete false (s.storeValueA (s.valA / s.valB))

/-- REM (R187): the true remainder; a zero divisor sets FLAG and leaves A unchanged. -/
def execRem (s : State) : Host.Outcome State Fault Refusal :=
  if s.valB = 0 then complete true s else complete false (s.storeValueA (s.valA % s.valB))

end Sys2Proof.Machine
end

