-- ==== Sys2Proof/Machine/BitCodec.lean ====
section
/-! DEFINITION. The meanings of the Bit Iterator & Chunk Codec commands (spec/42_bit_codec.md). They never
write B, LEN_B or RES (R150). -/

namespace Sys2Proof.Machine

/-- BITS (R151): one element of S for each bit of A. -/
def execBits (s : State) : Host.Outcome State Fault Refusal :=
  complete false (s.newS s.widthA (fun j => BitVec.ofNat 64 (bitAt s.bufA j).toNat))

/-- BITGET (R152): a position past the end of A is the contract violation BIT_INDEX. -/
def execBitget (k : Nat) (s : State) : Host.Outcome State Fault Refusal :=
  if s.widthA ≤ k then commandFault .bitIndex (.bitget k) s
  else complete (bitAt s.bufA k) s

/-- CHUNKS (R153, R157): a width out of range is the contract violation CHUNK_WIDTH. -/
def execChunks (n : Nat) (ct : ChunkType) (s : State) : Host.Outcome State Fault Refusal :=
  if badChunkWidth n ct then commandFault .chunkWidth (.chunks n ct) s
  else complete false
    (s.newS (chunkCount s.cfg.tail s.widthA n) (fun c => BitVec.ofNat 64 (s.chunkOfA n c)))

/-- FROMBITS (R154). -/
def execFrombits (s : State) : Host.Outcome State Fault Refusal :=
  complete false (s.newA (bytesForBits s.lengthS) (packByte s.streamBit))

/-- FROMCHUNKS (R155): CHUNK_WIDTH is checked first, then CAPACITY (R237). -/
def execFromchunks (n : Nat) (s : State) : Host.Outcome State Fault Refusal :=
  if badPackWidth n then commandFault .chunkWidth (.fromchunks n) s
  else if s.cfg.maxlen < bytesForBits (s.lengthS * n) then
    commandFault .capacity (.fromchunks n) s
  else complete false (s.newA (bytesForBits (s.lengthS * n)) (packByte (s.chunkBit n)))

end Sys2Proof.Machine
end

