-- ==== Sys2Proof/Machine/Bitwise.lean ====
section
/-! DEFINITION. The meanings of the Bitwise Engine commands (spec/41_bitwise.md). Each writes at most
`A[0..LA-1]`, FLAG and, for the counts, RES (R100). -/

namespace Sys2Proof.Machine

/-- SHL (R101). -/
def execShl (n : Nat) (s : State) : Host.Outcome State Fault Refusal :=
  complete (shlOverflow s.valA s.widthA n) (s.storeValueA (shlValue s.valA s.widthA n))

/-- SHR (R102). -/
def execShr (n : Nat) (s : State) : Host.Outcome State Fault Refusal :=
  complete (shrOverflow s.valA s.widthA n) (s.storeValueA (shrValue s.valA s.widthA n))

/-- REV (R103): bit `j` of the result is bit `W-1-j` of A. -/
def execRev (s : State) : Host.Outcome State Fault Refusal :=
  complete false (s.storeA (packByte (fun j => bitAt s.bufA (s.widthA - 1 - j))))

/-- NOT (R104). -/
def execNot (s : State) : Host.Outcome State Fault Refusal :=
  complete false (s.storeA (fun i => s.bufA.read i ^^^ 0xFF#8))

/-- BEAND (R105). -/
def execBeand (s : State) : Host.Outcome State Fault Refusal :=
  complete false (s.storeA (fun i => andPartner (s.bufA.read i) (s.partnerBE i)))

/-- BEOR (R106): a B shorter than A is the contract violation OPERAND_LENGTH. -/
def execBeor (s : State) : Host.Outcome State Fault Refusal :=
  if s.lengthB < s.lengthA then commandFault .operandLength .beor s
  else complete false (s.storeA (fun i => orPartner (s.bufA.read i) (s.partnerBE i)))

/-- BEXOR (R107). -/
def execBexor (s : State) : Host.Outcome State Fault Refusal :=
  complete false (s.storeA (fun i => xorPartner (s.bufA.read i) (s.partnerBE i)))

/-- LEAND (R108). -/
def execLeand (s : State) : Host.Outcome State Fault Refusal :=
  complete false (s.storeA (fun i => andPartner (s.bufA.read i) (s.partnerLE i)))

/-- LEOR (R109): a B shorter than A is legal. -/
def execLeor (s : State) : Host.Outcome State Fault Refusal :=
  complete false (s.storeA (fun i => orPartner (s.bufA.read i) (s.partnerLE i)))

/-- LEXOR (R110). -/
def execLexor (s : State) : Host.Outcome State Fault Refusal :=
  complete false (s.storeA (fun i => xorPartner (s.bufA.read i) (s.partnerLE i)))

/-- ALLZ (R111): A is not written. -/
def execAllz (s : State) : Host.Outcome State Fault Refusal :=
  complete ((List.range s.lengthA).all (fun i => s.bufA.read i == 0x00#8)) s

/-- ALLO (R112): A is not written. -/
def execAllo (s : State) : Host.Outcome State Fault Refusal :=
  complete ((List.range s.lengthA).all (fun i => s.bufA.read i == 0xFF#8)) s

/-- LZC (R113): A is not written. -/
def execLzc (s : State) : Host.Outcome State Fault Refusal :=
  complete false (s.setRes (BitVec.ofNat 64 (leadingZeros s.valA s.widthA)))

/-- TZC (R114): A is not written. -/
def execTzc (s : State) : Host.Outcome State Fault Refusal :=
  complete false (s.setRes (BitVec.ofNat 64 (trailingZeros s.valA s.widthA)))

end Sys2Proof.Machine
end

