-- ==== Sys2Proof/Machine/DataMove.lean ====
section
/-! DEFINITION. The meanings of the data movement commands (spec/44_data_movement.md). -/

namespace Sys2Proof.Machine

/-- MOVAB (R220): the bytes of A below LEN_A and LEN_A go to B; `B[LA..MAXLEN-1]` keep their values. -/
def execMovab (s : State) : Host.Outcome State Fault Refusal :=
  complete false { s with bufB := s.bufB.fill s.lengthA s.bufA.read, lenB := s.lenA }

/-- SWAP (R221): the whole storage of A and B and their lengths are exchanged. DEDUCED: for this one
command R221 is followed against R25's general words on the bytes beyond the
lengths (the model's reading, log entry 20). -/
def execSwap (s : State) : Host.Outcome State Fault Refusal :=
  complete false { s with bufA := s.bufB, bufB := s.bufA, lenA := s.lenB, lenB := s.lenA }

end Sys2Proof.Machine
end

