-- ==== Sys2Proof/Machine/Dispatch.lean ====
section
/-! DEFINITION. One arm per command (spec/30_encoding.md R86). -/

namespace Sys2Proof.Machine

/-- The effect of a command on the state (R10, R11): it reads the state before and gives the state after. -/
def exec (i : Instr) (s : State) : Host.Outcome State Fault Refusal :=
  match i with
  | .shl n => Sys2Proof.Machine.execShl n s
  | .shr n => Sys2Proof.Machine.execShr n s
  | .rev => Sys2Proof.Machine.execRev s
  | .not => Sys2Proof.Machine.execNot s
  | .beand => Sys2Proof.Machine.execBeand s
  | .beor => Sys2Proof.Machine.execBeor s
  | .bexor => Sys2Proof.Machine.execBexor s
  | .leand => Sys2Proof.Machine.execLeand s
  | .leor => Sys2Proof.Machine.execLeor s
  | .lexor => Sys2Proof.Machine.execLexor s
  | .allz => Sys2Proof.Machine.execAllz s
  | .allo => Sys2Proof.Machine.execAllo s
  | .lzc => Sys2Proof.Machine.execLzc s
  | .tzc => Sys2Proof.Machine.execTzc s
  | .bits => Sys2Proof.Machine.execBits s
  | .bitget k => Sys2Proof.Machine.execBitget k s
  | .chunks n ct => Sys2Proof.Machine.execChunks n ct s
  | .frombits => Sys2Proof.Machine.execFrombits s
  | .fromchunks n => Sys2Proof.Machine.execFromchunks n s
  | .cmp => Sys2Proof.Machine.execCmp s
  | .add => Sys2Proof.Machine.execAdd s
  | .sub => Sys2Proof.Machine.execSub s
  | .mul => Sys2Proof.Machine.execMul s
  | .div => Sys2Proof.Machine.execDiv s
  | .rem => Sys2Proof.Machine.execRem s
  | .movab => Sys2Proof.Machine.execMovab s
  | .swap => Sys2Proof.Machine.execSwap s

end Sys2Proof.Machine
end

