-- ==== Sys2Proof/Machine/Window.lean ====
section
/-! DEFINITION. The host register window (spec/20_memory.md): the map of R51, reads, writes, the execution
of a command word, and the performance of one host event. -/

namespace Sys2Proof.Machine

/-! ## The map -/

/-- What one mapped word of the window is: the rows of R51. -/
inductive Slot where
  | id
  | cmd
  | status
  | resLo
  | resHi
  | lenA
  | lenB
  | lenS
  | finfo0
  | finfo1
  | cap
  /-- `A[i]` (R52). -/
  | byteA (i : Nat)
  /-- `B[i]` (R53). -/
  | byteB (i : Nat)
  /-- `S[j][31:0]` (R54). -/
  | elemLo (j : Nat)
  /-- `S[j][63:32]` (R54). -/
  | elemHi (j : Nat)
deriving DecidableEq, Repr

/-- The bytes of offsets of the window: 19 bits (R50). -/
def windowBytes : Nat := 0x80000

/-- The offset of a slot (R51). -/
def Slot.offset : Slot → Nat
  | .id => 0x00000
  | .cmd => cmdOffset
  | .status => 0x00008
  | .resLo => 0x0000C
  | .resHi => 0x00010
  | .lenA => 0x00014
  | .lenB => 0x00018
  | .lenS => 0x0001C
  | .finfo0 => 0x00020
  | .finfo1 => 0x00024
  | .cap => 0x00028
  | .byteA i => 0x10000 + 4 * i
  | .byteB i => 0x20000 + 4 * i
  | .elemLo j => 0x40000 + 8 * j
  | .elemHi j => 0x40004 + 8 * j

/-- The slot exists on a machine with these parameters: A and B stop at MAXLEN, S at MAXS (R51). -/
def Slot.exists (p : Params) : Slot → Bool
  | .byteA i => decide (i < p.maxlen)
  | .byteB i => decide (i < p.maxlen)
  | .elemLo j => decide (j < p.maxs)
  | .elemHi j => decide (j < p.maxs)
  | .id | .cmd | .status | .resLo | .resHi | .lenA | .lenB | .lenS | .finfo0 | .finfo1 | .cap => true

/-- A slot that lies within capacity, if it does (R51, R56). -/
def Slot.mapped (p : Params) (r : Slot) : Option Slot := if r.exists p then some r else none

/-- The register at a 4-aligned offset below `0x10000` (R51). -/
def registerAt : Nat → Option Slot
  | 0x00000 => some .id
  | 0x00004 => some .cmd
  | 0x00008 => some .status
  | 0x0000C => some .resLo
  | 0x00010 => some .resHi
  | 0x00014 => some .lenA
  | 0x00018 => some .lenB
  | 0x0001C => some .lenS
  | 0x00020 => some .finfo0
  | 0x00024 => some .finfo1
  | 0x00028 => some .cap
  | _ => none

/-- The slot at a 4-aligned offset; none at a reserved offset and past a window's capacity (R51, R56). -/
def slotAt (p : Params) (off : Nat) : Option Slot :=
  if off < 0x10000 then registerAt off
  else if off < 0x20000 then Slot.mapped p (.byteA ((off - 0x10000) / 4))
  else if off < 0x40000 then Slot.mapped p (.byteB ((off - 0x20000) / 4))
  else if (off - 0x40000) % 8 = 0 then Slot.mapped p (.elemLo ((off - 0x40000) / 8))
  else Slot.mapped p (.elemHi ((off - 0x40000) / 8))

/-! ## Reads -/

/-- `ID`: MAGIC "XB", interface version 1, source revision 7 (R31). -/
def idWord : Word := 0x58420107#32

/-- `STATUS` (R33): FLAG in bit 0, FAULT in bit 1, FCODE in bits 7:4 (0 when FAULT = 0; DEDUCED, log entry 13),
the rest 0. -/
def statusWord (s : State) : Word :=
  0#24 ++ (if s.fault then s.fcode else 0#4) ++ 0#2 ++ BitVec.ofBool s.fault ++ BitVec.ofBool s.flag

/-- The word a host read of a slot returns (R51 to R54, R57, R60). -/
def readSlot (s : State) : Slot → Word
  | .id => idWord
  | .cmd => 0#32
  | .status => statusWord s
  | .resLo => s.res.extractLsb' 0 32
  | .resHi => s.res.extractLsb' 32 32
  | .lenA => s.lenA.zeroExtend 32
  | .lenB => s.lenB.zeroExtend 32
  | .lenS => s.lenS.zeroExtend 32
  | .finfo0 => s.finfo0
  | .finfo1 => s.finfo1
  | .cap => BitVec.ofNat 32 s.cfg.maxlen
  | .byteA i => (s.bufA.read i).zeroExtend 32
  | .byteB i => (s.bufB.read i).zeroExtend 32
  | .elemLo j => (s.bufS.read j).extractLsb' 0 32
  | .elemHi j => (s.bufS.read j).extractLsb' 32 32

/-! ## Writes -/

/-- A CMD write executes the word written (R51, R80); an illegal word raises ILLEGAL_CMD (R87). -/
def executeWord (w : Word) (s : State) : Host.Outcome State Fault Refusal :=
  match decode w with
  | .ok i => exec i s
  | .error _ => raiseFault .illegalCmd w (BitVec.ofNat 32 cmdOffset) s

/-- A write of a length register (R55): `s'` is the state with the length set; a value above `cap` raises
LEN_RANGE with the value and the register's offset (R234). -/
def writeLength (cap : Nat) (r : Slot) (w : Word) (s s' : State) : Host.Outcome State Fault Refusal :=
  if w.toNat ≤ cap then .next s' else raiseFault .lenRange w (BitVec.ofNat 32 r.offset) s

/-- A host write of a slot in the normal state (R51 to R57). -/
def writeSlot (s : State) (r : Slot) (w : Word) : Host.Outcome State Fault Refusal :=
  match r with
  | .id => .next s
  | .cmd => executeWord w s
  | .status => .next s
  | .resLo => .next s
  | .resHi => .next s
  | .lenA => writeLength s.cfg.maxlen .lenA w s { s with lenA := w.truncate 16 }
  | .lenB => writeLength s.cfg.maxlen .lenB w s { s with lenB := w.truncate 16 }
  | .lenS => writeLength s.cfg.maxs .lenS w s { s with lenS := w.truncate 16 }
  | .finfo0 => .next s
  | .finfo1 => .next s
  | .cap => .next s
  | .byteA i => .next { s with bufA := s.bufA.write i (w.truncate 8) }
  | .byteB i => .next { s with bufB := s.bufB.write i (w.truncate 8) }
  | .elemLo j => .next { s with bufS := s.bufS.write j ((s.bufS.read j).extractLsb' 32 32 ++ w) }
  | .elemHi j => .next { s with bufS := s.bufS.write j (w ++ (s.bufS.read j).extractLsb' 0 32) }

/-- A host write of a slot: in the faulted state it has no effect (R58, R235). DESIGN CHOICE: the test for it
stands here and not in `exec` (log entry 12). -/
def hostWrite (s : State) (r : Slot) (w : Word) : Host.Outcome State Fault Refusal :=
  if s.fault then .next s else writeSlot s r w

/-- A host read of a slot: the word goes to the host and nothing else changes (R62); the faulted state
reads as the normal one (R58). -/
def hostRead (s : State) (r : Slot) : Host.Outcome State Fault Refusal :=
  .next { s with rdata := some (readSlot s r) }

/-! ## Accesses and events -/

/-- The slot an access reaches, or why it has no meaning (R50, R56, R65, R260). DESIGN CHOICE: the order in
which an access that breaks several conditions is named (log entry 9). -/
def locate (s : State) (master addr size : Nat) : Host.Outcome Slot Fault Refusal :=
  if s.rst then .refused .accessInReset
  else if master ≠ 0 then .refused .secondHost
  else if addr < s.cfg.base ∨ s.cfg.base + windowBytes ≤ addr then .fault .outsideWindow
  else if size ≠ 4 then .refused .badWidth
  else if (addr - s.cfg.base) % 4 ≠ 0 then .refused .misaligned
  else match slotAt s.cfg (addr - s.cfg.base) with
    | some r => .next r
    | none => .refused .unmappedOffset

/-- An access that reaches a slot does `k` there; any other stops as `locate` says. -/
def atSlot (found : Host.Outcome Slot Fault Refusal) (k : Slot → Host.Outcome State Fault Refusal) :
    Host.Outcome State Fault Refusal :=
  match found with
  | .next r => k r
  | .fault f => .fault f
  | .refused f => .refused f

/-- One event is performed, to the end, before the next one (R61, R63). -/
def perform (e : HostEvent) (s : State) : Host.Outcome State Fault Refusal :=
  match e with
  | .read master addr size => atSlot (locate s master addr size) (hostRead s)
  | .write master addr size w => atSlot (locate s master addr size) (fun r => hostWrite s r w)
  | .rst level => .next (s.driveRst level)

/-- The host has put its oldest event to the engine. -/
def State.withPending (s : State) (es : List HostEvent) : State := { s with pending := es }

/-- The host's write of a command word to CMD (R51, R80). -/
def cmdWrite (p : Params) (w : Word) : HostEvent := .write 0 (p.base + cmdOffset) 4 w

/-- The engine takes the oldest pending event; with none it is idle and keeps its state (R245, R261). -/
def takeEvent (s : State) : Host.Outcome State Fault Refusal :=
  match s.pending with
  | [] => .next s
  | e :: rest => perform e (s.withPending rest)

end Sys2Proof.Machine
end

