-- ==== Sys2Proof/Machine/Step.lean ====
section
/-! DEFINITION. One step of the engine: one host event, performed to the end (spec/20_memory.md R61, R63). -/

namespace Sys2Proof.Machine

/-- One step: the oldest pending event, or nothing when the engine is idle (R63, R261). -/
def step (s : State) : Host.Outcome State Fault Refusal := takeEvent s

/-- `s` with a command about to run: a host write of the 32-bit word `w` to CMD stands before every other
pending event, so that the next step performs it (R51, R66). The engine fetches nothing, so no item of the
engine itself is touched; a faulted engine, or one held in reset, still treats the write as R58 and R260 say.
DESIGN CHOICE: how a program comes to run (log entry 4). -/
def State.withFetchWord (s : State) (nbits w : Nat) : State :=
  s.withPending (cmdWrite s.cfg (BitVec.ofNat 32 (w % 2 ^ nbits)) :: s.pending)

end Sys2Proof.Machine
end

