-- ==== Sys2Proof/Machine/Assembler.lean ====
section
/-! DEFINITION. The command syntax of spec/30_encoding.md R90, over lists of characters. -/

namespace Sys2Proof.Machine

/-- The mnemonic in upper case, as spec/opcode_table.json spells it (R86). -/
def mnemonicChars : Mnemonic → List Char
  | .shl => ['S', 'H', 'L']
  | .shr => ['S', 'H', 'R']
  | .rev => ['R', 'E', 'V']
  | .not => ['N', 'O', 'T']
  | .beand => ['B', 'E', 'A', 'N', 'D']
  | .beor => ['B', 'E', 'O', 'R']
  | .bexor => ['B', 'E', 'X', 'O', 'R']
  | .leand => ['L', 'E', 'A', 'N', 'D']
  | .leor => ['L', 'E', 'O', 'R']
  | .lexor => ['L', 'E', 'X', 'O', 'R']
  | .allz => ['A', 'L', 'L', 'Z']
  | .allo => ['A', 'L', 'L', 'O']
  | .lzc => ['L', 'Z', 'C']
  | .tzc => ['T', 'Z', 'C']
  | .bits => ['B', 'I', 'T', 'S']
  | .bitget => ['B', 'I', 'T', 'G', 'E', 'T']
  | .chunks => ['C', 'H', 'U', 'N', 'K', 'S']
  | .frombits => ['F', 'R', 'O', 'M', 'B', 'I', 'T', 'S']
  | .fromchunks => ['F', 'R', 'O', 'M', 'C', 'H', 'U', 'N', 'K', 'S']
  | .cmp => ['C', 'M', 'P']
  | .add => ['A', 'D', 'D']
  | .sub => ['S', 'U', 'B']
  | .mul => ['M', 'U', 'L']
  | .div => ['D', 'I', 'V']
  | .rem => ['R', 'E', 'M']
  | .movab => ['M', 'O', 'V', 'A', 'B']
  | .swap => ['S', 'W', 'A', 'P']

/-- Every mnemonic (R86). -/
def allMnemonics : List Mnemonic :=
  [.shl, .shr, .rev, .not, .beand, .beor, .bexor, .leand, .leor, .lexor, .allz, .allo, .lzc, .tzc,
   .bits, .bitget, .chunks, .frombits, .fromchunks, .cmp, .add, .sub, .mul, .div, .rem, .movab, .swap]

/-- The lower-case letter of an upper-case one; any other character is itself. -/
def lowerChar (c : Char) : Char :=
  if 65 ≤ c.toNat ∧ c.toNat ≤ 90 then Char.ofNat (c.toNat + 32) else c

/-- The mnemonic written, in upper or in lower case (R90). -/
def mnemonicOf (cs : List Char) : Option Mnemonic :=
  allMnemonics.find? (fun m => cs == mnemonicChars m || cs == (mnemonicChars m).map lowerChar)

/-- The value of a hexadecimal digit in either case. -/
def digitValue (c : Char) : Option Nat :=
  let k := c.toNat
  if 48 ≤ k ∧ k ≤ 57 then some (k - 48)
  else if 97 ≤ k ∧ k ≤ 102 then some (k - 87)
  else if 65 ≤ k ∧ k ≤ 70 then some (k - 55)
  else none

/-- The number a list of digits writes in a base, continuing from `acc`. -/
def digitsValue (base : Nat) : Nat → List Char → Option Nat
  | acc, [] => some acc
  | acc, c :: cs =>
    match digitValue c with
    | some d => if d < base then digitsValue base (acc * base + d) cs else none
    | none => none

/-- A decimal or `0x` hexadecimal number from 0 to 65535 (R90). -/
def operandOf (cs : List Char) : Option Nat :=
  let n := match cs with
    | [] => none
    | ['0', 'x'] => none
    | '0' :: 'x' :: ds => digitsValue 16 0 ds
    | ds => digitsValue 10 0 ds
  n.bind (fun v => if immFits v then some v else none)

/-- The storage type of CHUNKS: `u8`, `u16`, `u32` or `u64` (R90). -/
def chunkTypeOf (cs : List Char) : Option ChunkType :=
  if cs = ['u', '8'] then some .u8
  else if cs = ['u', '1', '6'] then some .u16
  else if cs = ['u', '3', '2'] then some .u32
  else if cs = ['u', '6', '4'] then some .u64
  else none

/-- The words of a line: cut at spaces, a comma being a word of its own. `cur` is the word being read, in
reverse. -/
def tokens : List Char → List Char → List (List Char)
  | cur, [] => if cur.isEmpty then [] else [cur.reverse]
  | cur, c :: cs =>
    if c = ' ' then (if cur.isEmpty then [] else [cur.reverse]) ++ tokens [] cs
    else if c = ',' then (if cur.isEmpty then [] else [cur.reverse]) ++ [[',']] ++ tokens [] cs
    else tokens (c :: cur) cs

/-- A command of no operand (R90). -/
def plainCommand : Mnemonic → Option Instr
  | .rev => some .rev
  | .not => some .not
  | .beand => some .beand
  | .beor => some .beor
  | .bexor => some .bexor
  | .leand => some .leand
  | .leor => some .leor
  | .lexor => some .lexor
  | .allz => some .allz
  | .allo => some .allo
  | .lzc => some .lzc
  | .tzc => some .tzc
  | .bits => some .bits
  | .frombits => some .frombits
  | .cmp => some .cmp
  | .add => some .add
  | .sub => some .sub
  | .mul => some .mul
  | .div => some .div
  | .rem => some .rem
  | .movab => some .movab
  | .swap => some .swap
  | .shl | .shr | .bitget | .chunks | .fromchunks => none

/-- A command of one operand: `shl n`, `shr n`, `bitget k`, `fromchunks n` (R90). -/
def operandCommand (n : Nat) : Mnemonic → Option Instr
  | .shl => some (.shl n)
  | .shr => some (.shr n)
  | .bitget => some (.bitget n)
  | .fromchunks => some (.fromchunks n)
  | .rev | .not | .beand | .beor | .bexor | .leand | .leor | .lexor | .allz | .allo | .lzc | .tzc
  | .bits | .chunks | .frombits | .cmp | .add | .sub | .mul | .div | .rem | .movab | .swap => none

/-- The command a line writes (R90); none is an assembly error. -/
def parseCommand (line : List Char) : Option Instr :=
  match tokens [] line with
  | [m] => (mnemonicOf m).bind plainCommand
  | [m, n] => (mnemonicOf m).bind (fun k => (operandOf n).bind (fun v => operandCommand v k))
  | [m, n, sep, t] =>
    if mnemonicOf m = some .chunks ∧ sep = [','] then
      (operandOf n).bind (fun v => (chunkTypeOf t).map (fun ct => .chunks v ct))
    else none
  | _ => none

/-- The word a line assembles to (R90). -/
def assemble (line : List Char) : Option Word := (parseCommand line).map encode

end Sys2Proof.Machine
end

