-- ==== Sys2Proof/Machine/HostProgram.lean ====
section
/-! DEFINITION. The host-program notation of spec/30_encoding.md R91: each form's expansion into host
accesses, and a host that runs a list of forms. The forms are host actions, not engine commands. -/

namespace Sys2Proof.Machine

/-- A form of R91. A label is the index of a form in the program (log entry 18). `REG` is a name of R51. -/
inductive HostForm where
  | cmd (i : Instr)
  | wr (reg : Slot) (v : Word)
  | rd (reg : Slot)
  | wrA (i : Nat) (v : Word)
  | wrB (i : Nat) (v : Word)
  | rdA (i : Nat)
  | rdB (i : Nat)
  | ldA (bytes : List Byte)
  | ldB (bytes : List Byte)
  | ldS (elems : List Dword)
  | jf (label : Nat)
  | jnf (label : Nat)
  | jmp (label : Nat)
  | halt
deriving DecidableEq, Repr

/-- `MemWrite(off, 4, v)` by the one host (R10). -/
def memWrite (p : Params) (off : Nat) (v : Word) : HostEvent := .write 0 (p.base + off) 4 v

/-- `MemRead(off, 4)` by the one host (R10). -/
def memRead (p : Params) (off : Nat) : HostEvent := .read 0 (p.base + off) 4

/-- The writes of bytes to consecutive positions of a buffer window. -/
def loadBytes (p : Params) (r : Nat → Slot) (at_ : Nat) : List Byte → List HostEvent
  | [] => []
  | b :: bs => memWrite p (r at_).offset (b.zeroExtend 32) :: loadBytes p r (at_ + 1) bs

/-- The writes of elements to consecutive positions of the stream window, low half first. -/
def loadElems (p : Params) (at_ : Nat) : List Dword → List HostEvent
  | [] => []
  | e :: es =>
    memWrite p (Slot.elemLo at_).offset (e.extractLsb' 0 32) ::
      memWrite p (Slot.elemHi at_).offset (e.extractLsb' 32 32) :: loadElems p (at_ + 1) es

/-- The accesses a form expands to (R91). -/
def HostForm.events (p : Params) : HostForm → List HostEvent
  | .cmd i => [memWrite p cmdOffset (encode i)]
  | .wr reg v => [memWrite p reg.offset v]
  | .rd reg => [memRead p reg.offset]
  | .wrA i v => [memWrite p (Slot.byteA i).offset v]
  | .wrB i v => [memWrite p (Slot.byteB i).offset v]
  | .rdA i => [memRead p (Slot.byteA i).offset]
  | .rdB i => [memRead p (Slot.byteB i).offset]
  | .ldA bs => memWrite p Slot.lenA.offset (BitVec.ofNat 32 bs.length) :: loadBytes p .byteA 0 bs
  | .ldB bs => memWrite p Slot.lenB.offset (BitVec.ofNat 32 bs.length) :: loadBytes p .byteB 0 bs
  | .ldS es => memWrite p Slot.lenS.offset (BitVec.ofNat 32 es.length) :: loadElems p 0 es
  | .jf _ => [memRead p Slot.status.offset]
  | .jnf _ => [memRead p Slot.status.offset]
  | .jmp _ => []
  | .halt => []

/-- The FLAG bit of the word the host read last (R33, R91). -/
def State.flagRead (s : State) : Bool :=
  match s.rdata with
  | some w => w.getLsbD 0
  | none => false

/-- The form after form `pc` of a program, once its accesses are performed; none for `halt` (R91). -/
def HostForm.target (f : HostForm) (pc : Nat) (s : State) : Option Nat :=
  match f with
  | .jf label => some (if s.flagRead then label else pc + 1)
  | .jnf label => some (if s.flagRead then pc + 1 else label)
  | .jmp label => some label
  | .halt => none
  | .cmd _ | .wr _ _ | .rd _ | .wrA _ _ | .wrB _ _ | .rdA _ | .rdB _ | .ldA _ | .ldB _ | .ldS _ => some (pc + 1)

/-- A host that puts events to the engine, one step each, in order (R63). -/
def issue (s : State) : List HostEvent → Host.Outcome State Fault Refusal
  | [] => .next s
  | e :: es =>
    match step (s.withPending (e :: s.pending)) with
    | .next s' => issue s' es
    | .fault f => .fault f
    | .refused f => .refused f

/-- A host running a program: the index of its next form (none once ended) and the engine. -/
structure HostRun where
  pc : Option Nat
  engine : State
deriving DecidableEq, Repr

/-- The host performs one form of its program; a host that has ended stays ended (R91). -/
def hostStep (prog : List HostForm) (h : HostRun) : Host.Outcome HostRun Fault Refusal :=
  match h.pc.bind (fun k => prog[k]?.map (fun f => (k, f))) with
  | none => .next { h with pc := none }
  | some (k, f) =>
    match issue h.engine (f.events h.engine.cfg) with
    | .next s' => .next { pc := f.target k s', engine := s' }
    | .fault e => .fault e
    | .refused e => .refused e

end Sys2Proof.Machine
end

