-- ==== Sys2Proof/Machine/Serial.lean ====
section
/-! DEFINITION. The spec's other forms of some commands: the byte-serial ADD and SUB of R182 and R183, and
the informative algorithms of R115 (shift), R156 (residual bits) and R188 (long division). No meaning uses
them; the statements say that they give what the meanings give. -/

namespace Sys2Proof.Machine

/-! ## Byte-serial addition and subtraction -/

/-- `bb` of R182 and R183: `B[k]` with `k = i - LA + LB` if `k >= 0`, else 0. -/
def State.serialOperand (s : State) (i : Nat) : Nat :=
  match s.partnerBE i with
  | some y => y.toNat
  | none => 0

/-- The carry and the result bytes after the last `k` of `L` bytes, from the low end up (R182). -/
def addSerial (x y : Nat → Nat) (L : Nat) : Nat → Nat × List Byte
  | 0 => (0, [])
  | k + 1 =>
    let r := addSerial x y L k
    let t := x (L - 1 - k) + y (L - 1 - k) + r.1
    (t / 256, BitVec.ofNat 8 (t % 256) :: r.2)

/-- The borrow and the result bytes after the last `k` of `L` bytes, from the low end up (R183). -/
def subSerial (x y : Nat → Nat) (L : Nat) : Nat → Nat × List Byte
  | 0 => (0, [])
  | k + 1 =>
    let r := subSerial x y L k
    let t : Int := (x (L - 1 - k) : Int) - (y (L - 1 - k) : Int) - (r.1 : Int)
    (if t < 0 then 1 else 0, BitVec.ofNat 8 (t % 256).toNat :: r.2)

/-- The carry and bytes of the byte-serial ADD (R182). -/
def State.serialAdd (s : State) : Nat × List Byte :=
  addSerial (fun i => (s.bufA.read i).toNat) s.serialOperand s.lengthA s.lengthA

/-- The borrow and bytes of the byte-serial SUB (R183). -/
def State.serialSub (s : State) : Nat × List Byte :=
  subSerial (fun i => (s.bufA.read i).toNat) s.serialOperand s.lengthA s.lengthA

/-! ## The shift of R115 -/

/-- `T[i]` of R115: the byte move by `q` bytes with zero fill. -/
def State.movedByte (s : State) (q i : Nat) : Byte :=
  if i + q < s.lengthA then s.bufA.read (i + q) else 0#8

/-- Byte `i` of SHL by R115: the byte move by `n div 8`, then the carry of `n mod 8` bits between bytes. -/
def State.shiftedByte (s : State) (n i : Nat) : Byte :=
  (s.movedByte (n / 8) i <<< (n % 8)) |||
    (if i + 1 < s.lengthA ∧ 0 < n % 8 then s.movedByte (n / 8) (i + 1) >>> (8 - n % 8) else 0#8)

/-! ## The residual bits of R156 -/

/-- The complete bytes of the top `8 * q` bits of an accumulator of `8 * q + r` bits. -/
def completeBytes (acc r : Nat) : Nat → List Byte
  | 0 => []
  | q + 1 => BitVec.ofNat 8 (acc / 2 ^ (r + 8 * q)) :: completeBytes acc r q

/-- The packer of R156: an accumulator takes each masked chunk of width `n` and gives every complete byte;
`frag` holds the `cnt` (0 to 7) leftover bits, given at the end as one byte padded with low-order zeros. -/
def packResidual (n : Nat) : List Nat → Nat → Nat → List Byte
  | [], frag, cnt => if cnt = 0 then [] else [BitVec.ofNat 8 (frag * 2 ^ (8 - cnt))]
  | c :: cs, frag, cnt =>
    let acc := frag * 2 ^ n + c % 2 ^ n
    let have_ := cnt + n
    completeBytes acc (have_ % 8) (have_ / 8) ++ packResidual n cs (acc % 2 ^ (have_ % 8)) (have_ % 8)

/-- The bytes FROMCHUNKS packs from S by R156. -/
def State.residualBytes (s : State) (n : Nat) : List Byte :=
  packResidual n ((List.range s.lengthS).map (fun j => (s.bufS.read j).toNat)) 0 0

/-! ## The long division of R188 -/

/-- The loop of R188 over `j` positions from high to low: divisor `d`, running remainder `r`, quotient `q`. -/
def divideLoop : Nat → Nat → Nat → Nat → Nat × Nat
  | 0, _, r, q => (q, r)
  | j + 1, d, r, q =>
    if d ≤ r then divideLoop j (d / 2) (r - d) (q + 2 ^ j) else divideLoop j (d / 2) r q

/-- Quotient and remainder by the bit-scanning long division of R188, for `b != 0`; `W` and `WB` are the
widths of the operands in bits. -/
def longDivide (a b W WB : Nat) : Nat × Nat :=
  if bitlen a < bitlen b then (0, a)
  else
    let t := min (trailingZeros a W) (trailingZeros b WB)
    let diff := bitlen a - bitlen b
    let st := divideLoop (diff + 1) (b / 2 ^ t * 2 ^ diff) (a / 2 ^ t) 0
    (st.1, st.2 * 2 ^ t)

end Sys2Proof.Machine
end

