-- ==== Sys2Proof/Safety.lean ====
section
/-! DEFINITION. What claims speak of: the contract of each command, a safe run, the invariant of the machine,
and the frames that say what a command leaves unchanged. -/

namespace Sys2Proof.Machine

/-! ## Contracts and safe runs -/

/-- The command violates no contract in this state (R230, R232): its result is not a fault. -/
def Contract (i : Instr) (s : State) : Bool :=
  match i with
  | .beor => decide (s.lengthA ≤ s.lengthB)
  | .bitget k => decide (k < 8 * s.lengthA)
  | .chunks n ct => decide (1 ≤ n) && decide (n ≤ 32) && decide (n ≤ ChunkType.width ct)
  | .fromchunks n => decide (1 ≤ n) && decide (n ≤ 32) && decide (s.lengthS * n ≤ 8 * s.cfg.maxlen)
  | .shl _ | .shr _ | .rev | .not | .beand | .bexor | .leand | .leor | .lexor | .allz | .allo | .lzc
  | .tzc | .bits | .frombits | .cmp | .add | .sub | .mul | .div | .rem | .movab | .swap => true

/-- A run of `n` steps that never stops and never reaches the faulted state: "a host run that reaches
`FAULT = 1` has failed" (R236). -/
def safeRun : Nat → State → Bool
  | 0, s => !s.fault
  | n + 1, s =>
    !s.fault &&
      match step s with
      | .next t => safeRun n t
      | .fault _ => false
      | .refused _ => false

/-! ## The invariant -/

/-- The fault record of a faulted engine is one that R232 lists: a code 1 to 6, and in FINFO1 the offset
of CMD, or of a length register for LEN_RANGE. -/
def State.recordListed (s : State) : Prop :=
  ((s.fcode = 1#4 ∨ s.fcode = 2#4 ∨ s.fcode = 3#4 ∨ s.fcode = 4#4 ∨ s.fcode = 5#4) ∧ s.finfo1 = 0x00004#32)
    ∨ (s.fcode = 6#4 ∧ (s.finfo1 = 0x00014#32 ∨ s.finfo1 = 0x00018#32 ∨ s.finfo1 = 0x0001C#32))

/-- What holds at reset and after every step. -/
structure State.Inv (s : State) : Prop where
  /-- `1 <= MAXLEN <= 4096` (R6). -/
  params : s.cfg.legal = true
  /-- `LEN_A` holds 0..MAXLEN (R26). -/
  lenA_le : s.lengthA ≤ s.cfg.maxlen
  /-- `LEN_B` holds 0..MAXLEN (R26). -/
  lenB_le : s.lengthB ≤ s.cfg.maxlen
  /-- `LEN_S` holds 0..MAXS (R26). -/
  lenS_le : s.lengthS ≤ s.cfg.maxs
  /-- The listing of A is canonical. -/
  wfA : s.bufA.wf = true
  /-- The listing of B is canonical. -/
  wfB : s.bufB.wf = true
  /-- The listing of S is canonical. -/
  wfS : s.bufS.wf = true
  /-- A has MAXLEN bytes (R20). -/
  withinA : s.bufA.within s.cfg.maxlen = true
  /-- B has MAXLEN bytes (R20). -/
  withinB : s.bufB.within s.cfg.maxlen = true
  /-- S has MAXS elements (R20). -/
  withinS : s.bufS.within s.cfg.maxs = true
  /-- Outside the faulted state the fault record is as reset left it (R30, R33). -/
  record_clear : s.fault = false → s.fcode = 0#4 ∧ s.finfo0 = 0#32 ∧ s.finfo1 = 0#32
  /-- In the faulted state the fault record is one of R232. -/
  record_listed : s.fault = true → s.recordListed

/-! ## Frames

Each says that `t` keeps a part of `s`; buffers are compared through the read of one position. -/

/-- A and LEN_A are kept. -/
def SameA (s t : State) : Prop := t.lenA = s.lenA ∧ ∀ i, t.bufA.read i = s.bufA.read i

/-- B and LEN_B are kept. -/
def SameB (s t : State) : Prop := t.lenB = s.lenB ∧ ∀ i, t.bufB.read i = s.bufB.read i

/-- S and LEN_S are kept. -/
def SameS (s t : State) : Prop := t.lenS = s.lenS ∧ ∀ j, t.bufS.read j = s.bufS.read j

/-- FAULT, FCODE, FINFO0 and FINFO1 are kept. -/
def SameFault (s t : State) : Prop :=
  t.fault = s.fault ∧ t.fcode = s.fcode ∧ t.finfo0 = s.finfo0 ∧ t.finfo1 = s.finfo1

/-- The parameters, the RST level, the events still pending and the word last read are kept. -/
def SameHost (s t : State) : Prop :=
  t.cfg = s.cfg ∧ t.rst = s.rst ∧ t.pending = s.pending ∧ t.rdata = s.rdata

/-- At most `A[0..LA-1]`, FLAG and RES changed (R100, R180). -/
def OnlyBytesOfA (s t : State) : Prop :=
  t.lenA = s.lenA ∧ (∀ i, s.lengthA ≤ i → t.bufA.read i = s.bufA.read i) ∧
    SameB s t ∧ SameS s t ∧ SameFault s t ∧ SameHost s t

/-- At most FLAG and RES changed. -/
def OnlyStatus (s t : State) : Prop :=
  SameA s t ∧ SameB s t ∧ SameS s t ∧ SameFault s t ∧ SameHost s t

/-- At most LEN_A, the first `n` bytes of A, FLAG and RES changed (R150). -/
def OnlyNewA (n : Nat) (s t : State) : Prop :=
  (∀ i, n ≤ i → t.bufA.read i = s.bufA.read i) ∧
    SameB s t ∧ SameS s t ∧ SameFault s t ∧ SameHost s t

/-- At most LEN_S, the first `n` elements of S, FLAG and RES changed (R150). -/
def OnlyNewS (n : Nat) (s t : State) : Prop :=
  (∀ j, n ≤ j → t.bufS.read j = s.bufS.read j) ∧
    SameA s t ∧ SameB s t ∧ SameFault s t ∧ SameHost s t

/-- Fault entry (R233): the record holds the code and the information, and everything else is kept. -/
def FaultEntered (code : BitVec 4) (i0 i1 : Word) (s t : State) : Prop :=
  t.fault = true ∧ t.fcode = code ∧ t.finfo0 = i0 ∧ t.finfo1 = i1 ∧
    SameA s t ∧ SameB s t ∧ SameS s t ∧ t.flag = s.flag ∧ t.res = s.res ∧ SameHost s t

/-- Two states agree on everything but bytes and elements beyond the current lengths (R25). -/
def AgreeBelowLengths (s t : State) : Prop :=
  t.lenA = s.lenA ∧ t.lenB = s.lenB ∧ t.lenS = s.lenS ∧
    (∀ i, i < s.lengthA → t.bufA.read i = s.bufA.read i) ∧
    (∀ i, i < s.lengthB → t.bufB.read i = s.bufB.read i) ∧
    (∀ j, j < s.lengthS → t.bufS.read j = s.bufS.read j) ∧
    t.flag = s.flag ∧ t.res = s.res ∧ SameFault s t ∧ SameHost s t

/-! ## Accesses -/

/-- The next event is a host read of a mapped slot. -/
def ReadNext (s : State) (r : Slot) (rest : List HostEvent) : Prop :=
  s.rst = false ∧ s.cfg.legal = true ∧ r.exists s.cfg = true ∧
    s.pending = .read 0 (s.cfg.base + r.offset) 4 :: rest

/-- The next event is a host write of a mapped slot. -/
def WriteNext (s : State) (r : Slot) (w : Word) (rest : List HostEvent) : Prop :=
  s.rst = false ∧ s.cfg.legal = true ∧ r.exists s.cfg = true ∧
    s.pending = .write 0 (s.cfg.base + r.offset) 4 w :: rest

/-- The offsets R51 maps, for given parameters: the registers, then the windows of A, B and S. -/
def mappedOffset (p : Params) (off : Nat) : Bool :=
  decide (off < 0x0002C) || (decide (0x10000 ≤ off) && decide (off < 0x10000 + 4 * p.maxlen))
    || (decide (0x20000 ≤ off) && decide (off < 0x20000 + 4 * p.maxlen))
    || (decide (0x40000 ≤ off) && decide (off < 0x40000 + 8 * p.maxs))

end Sys2Proof.Machine
end

