-- ==== Sys2Proof/Certificates/Slice0/Obligations.lean ====
section
/-! DEFINITION. The statements for the provers. Each docstring names the rule of spec/ it formalises. -/

open Sys2Proof Sys2Proof.Machine

/-! ## Encoding -/

/-- Decode and encode agree: every well-formed command is what its word decodes to (R82, R83, R84, R89, R90). -/
def Obligations.DecodeOfEncode : Prop :=
  ∀ i : Instr, i.wf = true → decode (encode i) = .ok i

/-- A word that decodes is the word of the well-formed command it decodes to, so no two words are the same
command (R88). -/
def Obligations.EncodeOfDecode : Prop :=
  ∀ (w : Word) (i : Instr), decode w = .ok i → i.wf = true ∧ encode i = w

/-- R89: a word decodes to a command of a row exactly when it matches the row's mask and match. -/
def Obligations.DecodeIsMaskAndMatch : Prop :=
  ∀ (w : Word) (m : Mnemonic),
    (∃ i, decode w = .ok i ∧ i.mnemonic = m) ↔ w &&& m.mask = m.pattern

/-- R87: the illegal words are those of an unassigned OP or of a nonzero reserved field, and executing one
raises ILLEGAL_CMD with the word, and nothing else. -/
def Obligations.IllegalWordsFault : Prop :=
  ∀ w : Word,
    ((∃ e, decode w = .error e) ↔
      (∀ m : Mnemonic, m.op ≠ w.toNat % 2 ^ 8) ∨
        ∃ m : Mnemonic, m.op = w.toNat % 2 ^ 8 ∧
          ((m.format = .f0 ∧ w.toNat / 2 ^ 8 ≠ 0) ∨
            (m.format = .fi ∧ w.toNat / 2 ^ 8 % 2 ^ 8 ≠ 0) ∨
            (m.format = .fc ∧ w.toNat / 2 ^ 10 % 2 ^ 6 ≠ 0))) ∧
      ∀ (e : Illegal) (s : State), decode w = .error e →
        ∃ t, executeWord w s = .next t ∧ FaultEntered 1#4 w 0x00004#32 s t

/-- Words written out from the formats of R82 to R84 and the opcodes of R86 decode to their commands. -/
def Obligations.SpecWordsDecode : Prop :=
  decode 0b0000000000000100_00000000_00010000#32 = .ok (.shl 4) ∧
  decode 0b0000000000000000_00000000_00010010#32 = .ok .rev ∧
  decode 0b0000000000001011_00000001_00100010#32 = .ok (.chunks 11 .u16) ∧
  decode 0b0000000000000110_00000000_00100100#32 = .ok (.fromchunks 6) ∧
  decode 0b0000000000000000_00000000_00110100#32 = .ok .div ∧
  decode 0b0000000000000000_00000000_01000001#32 = .ok .swap

/-! ## Steps -/

/-- A step runs the decoded command: when the oldest pending event is the host's write of a word to CMD and the
engine is neither faulted nor in reset, the step is the command the word decodes to, the event being consumed
and nothing else added; a word that does not decode is the fault ILLEGAL_CMD. -/
def Obligations.StepRunsDecodedCommand : Prop :=
  (∀ (s : State) (w : Word) (i : Instr) (rest : List HostEvent), s.rst = false → s.fault = false →
    s.pending = .write 0 (s.cfg.base + 0x00004) 4 w :: rest → decode w = .ok i →
    step s = exec i { s with pending := rest }) ∧
  ∀ (s : State) (w : Word) (e : Illegal) (rest : List HostEvent), s.rst = false → s.fault = false →
    s.pending = .write 0 (s.cfg.base + 0x00004) 4 w :: rest → decode w = .error e →
    ∃ t, step s = .next t ∧ FaultEntered 1#4 w 0x00004#32 { s with pending := rest } t

/-- The host form `cmd` of R91 runs the command it names. -/
def Obligations.CmdFormRunsCommand : Prop :=
  ∀ (s : State) (i : Instr), s.rst = false → s.fault = false → i.wf = true →
    issue s ((HostForm.cmd i).events s.cfg) = exec i s

/-! ## The Bitwise Engine -/

/-- R101: SHL, at every shift amount and every length. -/
def Obligations.ShlShiftsLeft : Prop :=
  (∀ n, n < 65536 → decode (fieldsWord n 0x00 0x10) = .ok (.shl n)) ∧
  ∀ (n : Nat) (s : State), ∃ t, exec (.shl n) s = .next t ∧ OnlyBytesOfA s t ∧ t.res = s.res ∧
    (s.widthA ≤ n → (∀ i, i < s.lengthA → t.bufA.read i = 0x00#8) ∧ t.flag = true) ∧
    (n < s.widthA →
      valBE t.bufA s.lengthA = (s.valA * 2 ^ n) % 2 ^ s.widthA ∧
      (t.flag = true ↔ s.valA / 2 ^ (s.widthA - n) ≠ 0))

/-- R102: SHR, at every shift amount and every length. -/
def Obligations.ShrShiftsRight : Prop :=
  (∀ n, n < 65536 → decode (fieldsWord n 0x00 0x11) = .ok (.shr n)) ∧
  ∀ (n : Nat) (s : State), ∃ t, exec (.shr n) s = .next t ∧ OnlyBytesOfA s t ∧ t.res = s.res ∧
    (s.widthA ≤ n → (∀ i, i < s.lengthA → t.bufA.read i = 0x00#8) ∧ t.flag = true) ∧
    (n < s.widthA →
      valBE t.bufA s.lengthA = s.valA / 2 ^ n ∧ (t.flag = true ↔ s.valA % 2 ^ n ≠ 0))

/-- R103: REV reverses the bit sequence, which is reversing the bytes and the bits of each; twice, it restores
A. -/
def Obligations.RevReversesBits : Prop :=
  decode 0x00000012#32 = .ok .rev ∧
  ∀ s : State, ∃ t u, exec .rev s = .next t ∧ exec .rev t = .next u ∧
    OnlyBytesOfA s t ∧ t.flag = false ∧ t.res = s.res ∧
    (∀ j, j < s.widthA → bitAt t.bufA j = bitAt s.bufA (s.widthA - 1 - j)) ∧
    (∀ i, i < s.lengthA → t.bufA.read i = (s.bufA.read (s.lengthA - 1 - i)).reverse) ∧
    ∀ i, u.bufA.read i = s.bufA.read i

/-- R104: NOT complements every byte of A. -/
def Obligations.NotComplements : Prop :=
  decode 0x00000013#32 = .ok .not ∧
  ∀ s : State, ∃ t, exec .not s = .next t ∧ OnlyBytesOfA s t ∧ t.flag = false ∧ t.res = s.res ∧
    ∀ i, i < s.lengthA → t.bufA.read i = s.bufA.read i ^^^ 0xFF#8

/-- R105, R116: BEAND pairs from the least significant byte, zeroes the bytes without a partner, and as a
value is the AND of A with B cut to the width. -/
def Obligations.BeandResult : Prop :=
  decode 0x00000014#32 = .ok .beand ∧
  ∀ s : State, ∃ t, exec .beand s = .next t ∧ OnlyBytesOfA s t ∧ t.flag = false ∧ t.res = s.res ∧
    (∀ i k, i < s.lengthA → i + s.lengthB = k + s.lengthA →
      t.bufA.read i = s.bufA.read i &&& s.bufB.read k) ∧
    (∀ i, i < s.lengthA → i + s.lengthB < s.lengthA → t.bufA.read i = 0x00#8) ∧
    valBE t.bufA s.lengthA = s.valA &&& (s.valB % 2 ^ s.widthA)

/-- R106: BEOR completes when B is at least as long as A; otherwise it is the fault OPERAND_LENGTH and nothing
else. -/
def Obligations.BeorResultOrFault : Prop :=
  decode 0x00000015#32 = .ok .beor ∧
  ∀ s : State, ∃ t, exec .beor s = .next t ∧
    (s.lengthA ≤ s.lengthB → OnlyBytesOfA s t ∧ t.flag = false ∧ t.res = s.res ∧
      ∀ i k, i < s.lengthA → i + s.lengthB = k + s.lengthA →
        t.bufA.read i = s.bufA.read i ||| s.bufB.read k) ∧
    (s.lengthB < s.lengthA → FaultEntered 4#4 0x00000015#32 0x00004#32 s t)

/-- R107: BEXOR pairs from the least significant byte and keeps the bytes without a partner. -/
def Obligations.BexorResult : Prop :=
  decode 0x00000016#32 = .ok .bexor ∧
  ∀ s : State, ∃ t, exec .bexor s = .next t ∧ OnlyBytesOfA s t ∧ t.flag = false ∧ t.res = s.res ∧
    (∀ i k, i < s.lengthA → i + s.lengthB = k + s.lengthA →
      t.bufA.read i = s.bufA.read i ^^^ s.bufB.read k) ∧
    (∀ i, i < s.lengthA → i + s.lengthB < s.lengthA → t.bufA.read i = s.bufA.read i)

/-- R108, R109, R110: the little-endian commands pair from byte 0; a byte without a partner becomes 0 under
AND and is kept under OR and XOR. -/
def Obligations.LittleEndianResults : Prop :=
  decode 0x00000017#32 = .ok .leand ∧ decode 0x00000018#32 = .ok .leor ∧ decode 0x00000019#32 = .ok .lexor ∧
  ∀ s : State, ∃ t u v, exec .leand s = .next t ∧ exec .leor s = .next u ∧ exec .lexor s = .next v ∧
    (OnlyBytesOfA s t ∧ t.flag = false ∧ t.res = s.res ∧ ∀ i, i < s.lengthA →
      t.bufA.read i = if i < s.lengthB then s.bufA.read i &&& s.bufB.read i else 0x00#8) ∧
    (OnlyBytesOfA s u ∧ u.flag = false ∧ u.res = s.res ∧ ∀ i, i < s.lengthA →
      u.bufA.read i = if i < s.lengthB then s.bufA.read i ||| s.bufB.read i else s.bufA.read i) ∧
    (OnlyBytesOfA s v ∧ v.flag = false ∧ v.res = s.res ∧ ∀ i, i < s.lengthA →
      v.bufA.read i = if i < s.lengthB then s.bufA.read i ^^^ s.bufB.read i else s.bufA.read i)

/-- R111, R112: ALLZ and ALLO put their predicate into FLAG and write nothing else. -/
def Obligations.AllZeroAllOneFlags : Prop :=
  decode 0x0000001A#32 = .ok .allz ∧ decode 0x0000001B#32 = .ok .allo ∧
  ∀ s : State, ∃ t u, exec .allz s = .next t ∧ exec .allo s = .next u ∧
    (OnlyStatus s t ∧ t.res = s.res ∧ (t.flag = true ↔ ∀ i, i < s.lengthA → s.bufA.read i = 0x00#8)) ∧
    (OnlyStatus s u ∧ u.res = s.res ∧ (u.flag = true ↔ ∀ i, i < s.lengthA → s.bufA.read i = 0xFF#8))

/-- R113: LZC counts to the first 1 bit from the most significant end, or the whole width. -/
def Obligations.LzcCountsLeadingZeros : Prop :=
  decode 0x0000001C#32 = .ok .lzc ∧
  ∀ s : State, ∃ t, exec .lzc s = .next t ∧ OnlyStatus s t ∧ t.flag = false ∧
    (∀ j, j < s.widthA → bitAt s.bufA j = true → (∀ k, k < j → bitAt s.bufA k = false) →
      t.res.toNat = j) ∧
    ((∀ j, j < s.widthA → bitAt s.bufA j = false) → t.res.toNat = s.widthA)

/-- R114: TZC counts from the last 1 bit to the least significant end, or the whole width. -/
def Obligations.TzcCountsTrailingZeros : Prop :=
  decode 0x0000001D#32 = .ok .tzc ∧
  ∀ s : State, ∃ t, exec .tzc s = .next t ∧ OnlyStatus s t ∧ t.flag = false ∧
    (∀ j, j < s.widthA → bitAt s.bufA j = true →
      (∀ k, j < k → k < s.widthA → bitAt s.bufA k = false) → t.res.toNat = s.widthA - 1 - j) ∧
    ((∀ j, j < s.widthA → bitAt s.bufA j = false) → t.res.toNat = s.widthA)

/-- R189: SHL then SHR by `n` below the width clears the high `n` bits of A and nothing else of it. -/
def Obligations.ShiftRoundTripClearsHighBits : Prop :=
  ∀ (n : Nat) (s : State), n < s.widthA →
    ∃ t u, exec (.shl n) s = .next t ∧ exec (.shr n) t = .next u ∧ u.flag = false ∧
      u.lenA = s.lenA ∧ valBE u.bufA s.lengthA = s.valA % 2 ^ (s.widthA - n)

/-! ## The bit iterator and chunk codec -/

/-- R151: BITS writes one element of S for each bit of A. `LEN_A` is at most 4096 (R6, R26). -/
def Obligations.BitsWritesBitSequence : Prop :=
  decode 0x00000020#32 = .ok .bits ∧
  ∀ s : State, s.lengthA ≤ 4096 → ∃ t, exec .bits s = .next t ∧ OnlyNewS s.widthA s t ∧
    t.flag = false ∧ t.res = s.res ∧ t.lenS.toNat = s.widthA ∧
    ∀ j, j < s.widthA → t.bufS.read j = if bitAt s.bufA j then 1#64 else 0#64

/-- R152: BITGET puts the bit at position `k` into FLAG; a `k` past the last position is the fault BIT_INDEX
and nothing else. -/
def Obligations.BitgetReadsBit : Prop :=
  ∀ (k : Nat) (s : State), k < 65536 → decode (fieldsWord k 0x00 0x21) = .ok (.bitget k) ∧
    ∃ t, exec (.bitget k) s = .next t ∧
      (k < s.widthA → OnlyStatus s t ∧ t.res = s.res ∧
        t.flag = (s.bufA.read (k / 8)).getLsbD (7 - k % 8)) ∧
      (s.widthA ≤ k → FaultEntered 3#4 (fieldsWord k 0x00 0x21) 0x00004#32 s t)

/-- R153, R157: CHUNKS makes `K` chunks of width `n`, PAD rounding `K` up and DROP down, each chunk the next
`n` bits most significant first, bits past the end of A being 0; a width out of range is the fault CHUNK_WIDTH
and nothing else. `LEN_A` is at most 4096 (R6, R26). -/
def Obligations.ChunksRegroupsBits : Prop :=
  ∀ (n : Nat) (ct : ChunkType) (s : State), n < 65536 → s.lengthA ≤ 4096 →
    decode (fieldsWord n ct.code 0x22) = .ok (.chunks n ct) ∧
    ∃ t K, exec (.chunks n ct) s = .next t ∧
      (n < 1 ∨ 32 < n ∨ ChunkType.width ct < n →
        FaultEntered 2#4 (fieldsWord n ct.code 0x22) 0x00004#32 s t) ∧
      (1 ≤ n → n ≤ 32 → n ≤ ChunkType.width ct →
        (s.cfg.tail = .drop → K = s.widthA / n) ∧ (s.cfg.tail = .pad → K = (s.widthA + n - 1) / n) ∧
        OnlyNewS K s t ∧ t.flag = false ∧ t.res = s.res ∧ t.lenS.toNat = K ∧
        ∀ c, c < K → (t.bufS.read c).toNat =
          ∑ b ∈ Finset.range n,
            (if c * n + b < s.widthA ∧ bitAt s.bufA (c * n + b) = true then 1 else 0) * 2 ^ (n - 1 - b))

/-- R154: FROMBITS packs bit 0 of each element of S, most significant first, the last byte padded with zeros.
`LEN_S` is at most 8 * 4096 (R6, R26). -/
def Obligations.FrombitsPacksBits : Prop :=
  decode 0x00000023#32 = .ok .frombits ∧
  ∀ s : State, s.lengthS ≤ 32768 → ∃ t, exec .frombits s = .next t ∧
    OnlyNewA ((s.lengthS + 7) / 8) s t ∧ t.flag = false ∧ t.res = s.res ∧
    t.lenA.toNat = (s.lengthS + 7) / 8 ∧
    ∀ i, i < (s.lengthS + 7) / 8 → (t.bufA.read i).toNat =
      ∑ b ∈ Finset.range 8,
        (if 8 * i + b < s.lengthS ∧ (s.bufS.read (8 * i + b)).getLsbD 0 = true then 1 else 0) * 2 ^ (7 - b)

/-- R155: FROMCHUNKS concatenates the low `n` bits of each element of S, most significant first, the last
byte padded with zeros; a width out of range is the fault CHUNK_WIDTH, a result past the capacity of A the fault
CAPACITY, and nothing else. -/
def Obligations.FromchunksPacksChunks : Prop :=
  ∀ (n : Nat) (s : State), n < 65536 → s.cfg.legal = true →
    decode (fieldsWord n 0x00 0x24) = .ok (.fromchunks n) ∧
    ∃ t, exec (.fromchunks n) s = .next t ∧
      (n < 1 ∨ 32 < n → FaultEntered 2#4 (fieldsWord n 0x00 0x24) 0x00004#32 s t) ∧
      (1 ≤ n → n ≤ 32 → s.cfg.maxlen < (s.lengthS * n + 7) / 8 →
        FaultEntered 5#4 (fieldsWord n 0x00 0x24) 0x00004#32 s t) ∧
      (1 ≤ n → n ≤ 32 → (s.lengthS * n + 7) / 8 ≤ s.cfg.maxlen →
        OnlyNewA ((s.lengthS * n + 7) / 8) s t ∧ t.flag = false ∧ t.res = s.res ∧
        t.lenA.toNat = (s.lengthS * n + 7) / 8 ∧
        ∀ i, i < (s.lengthS * n + 7) / 8 → (t.bufA.read i).toNat =
          ∑ b ∈ Finset.range 8,
            (if 8 * i + b < s.lengthS * n then
              (s.bufS.read ((8 * i + b) / n)).toNat % 2 ^ n / 2 ^ (n - 1 - (8 * i + b) % n) % 2
            else 0) * 2 ^ (7 - b))

/-- R158: when `n` divides the bit length of A, CHUNKS `n` then FROMCHUNKS `n` restores A and LEN_A. -/
def Obligations.ChunkRoundTripRestoresA : Prop :=
  ∀ (n : Nat) (ct : ChunkType) (s : State), 1 ≤ n → n ≤ 32 → n ≤ ChunkType.width ct →
    s.cfg.legal = true → s.lengthA ≤ s.cfg.maxlen → s.widthA % n = 0 →
    ∃ t u, exec (.chunks n ct) s = .next t ∧ exec (.fromchunks n) t = .next u ∧ SameA s u

/-- R154: BITS then FROMBITS restores A and LEN_A. -/
def Obligations.BitsRoundTripRestoresA : Prop :=
  ∀ s : State, s.lengthA ≤ 4096 →
    ∃ t u, exec .bits s = .next t ∧ exec .frombits t = .next u ∧ SameA s u

/-! ## The Arithmetic Engine -/

/-- R181, R29: CMP puts the ordering of the two values into RES. -/
def Obligations.CmpOrdersValues : Prop :=
  decode 0x00000030#32 = .ok .cmp ∧
  ∀ s : State, ∃ t, exec .cmp s = .next t ∧ OnlyStatus s t ∧ t.flag = false ∧
    (s.valA < s.valB → t.res = 0xFFFFFFFFFFFFFFFF#64) ∧
    (s.valA = s.valB → t.res = 0x0000000000000000#64) ∧
    (s.valB < s.valA → t.res = 0x0000000000000001#64)

/-- R182: ADD, for every pair of lengths. -/
def Obligations.AddWithCarry : Prop :=
  decode 0x00000031#32 = .ok .add ∧
  ∀ s : State, ∃ t, exec .add s = .next t ∧ OnlyBytesOfA s t ∧ t.res = s.res ∧
    valBE t.bufA s.lengthA = (s.valA + s.valB) % 2 ^ s.widthA ∧
    (t.flag = true ↔ 2 ^ s.widthA ≤ s.valA + s.valB)

/-- R183: SUB, for every pair of lengths; the difference is taken as an integer and then reduced. -/
def Obligations.SubWithBorrow : Prop :=
  decode 0x00000032#32 = .ok .sub ∧
  ∀ s : State, ∃ t, exec .sub s = .next t ∧ OnlyBytesOfA s t ∧ t.res = s.res ∧
    (valBE t.bufA s.lengthA : Int) = ((s.valA : Int) - (s.valB : Int)) % (2 ^ s.widthA : Int) ∧
    (t.flag = true ↔ s.valA < s.valB)

/-- R184: the shift-and-add loop of MUL has the rule's closed form. -/
def Obligations.MulHasClosedForm : Prop :=
  decode 0x00000033#32 = .ok .mul ∧
  ∀ s : State, ∃ t, exec .mul s = .next t ∧ OnlyBytesOfA s t ∧ t.res = s.res ∧
    valBE t.bufA s.lengthA = (s.valA * s.valB) % 2 ^ s.widthA ∧
    (t.flag = true ↔ 2 ^ s.widthA ≤ s.valA * s.valB ∨ 2 ^ s.widthA ≤ s.valB)

/-- R186: DIV leaves the quotient in A; a zero divisor sets FLAG and leaves A unchanged. -/
def Obligations.DivQuotient : Prop :=
  decode 0x00000034#32 = .ok .div ∧
  ∀ s : State, ∃ t, exec .div s = .next t ∧ OnlyBytesOfA s t ∧ t.res = s.res ∧
    (s.valB = 0 → (∀ i, t.bufA.read i = s.bufA.read i) ∧ t.flag = true) ∧
    (s.valB ≠ 0 → valBE t.bufA s.lengthA = s.valA / s.valB ∧ t.flag = false)

/-- R187: REM leaves the true remainder in A; a zero divisor sets FLAG and leaves A unchanged. -/
def Obligations.RemRemainder : Prop :=
  decode 0x00000035#32 = .ok .rem ∧
  ∀ s : State, ∃ t, exec .rem s = .next t ∧ OnlyBytesOfA s t ∧ t.res = s.res ∧
    (s.valB = 0 → (∀ i, t.bufA.read i = s.bufA.read i) ∧ t.flag = true) ∧
    (s.valB ≠ 0 → valBE t.bufA s.lengthA = s.valA % s.valB ∧ t.flag = false)

/-- R189: ADD then SUB restores A for every B, whatever FLAG was. -/
def Obligations.AddThenSubRestoresA : Prop :=
  ∀ s : State, ∃ t u, exec .add s = .next t ∧ exec .sub t = .next u ∧ SameA s u ∧ SameB s u

/-- R182, R183: the byte-serial ADD and SUB, carry and borrow passed from byte to byte, give the bytes and the
FLAG of ADD and SUB when B is no longer than A. -/
def Obligations.SerialAddSubAgree : Prop :=
  ∀ s : State, s.lengthB ≤ s.lengthA → ∃ t u, exec .add s = .next t ∧ exec .sub s = .next u ∧
    (List.range s.lengthA).map (fun i => t.bufA.read i) = s.serialAdd.2 ∧
    (t.flag = true ↔ s.serialAdd.1 ≠ 0) ∧
    (List.range s.lengthA).map (fun i => u.bufA.read i) = s.serialSub.2 ∧
    (u.flag = true ↔ s.serialSub.1 ≠ 0)

/-- R188: the bit-scanning long division, its stripped factor restored, gives the results of DIV and REM. -/
def Obligations.LongDivisionAgrees : Prop :=
  ∀ s : State, s.valB ≠ 0 → ∃ t u, exec .div s = .next t ∧ exec .rem s = .next u ∧
    longDivide s.valA s.valB s.widthA (8 * s.lengthB) =
      (valBE t.bufA s.lengthA, valBE u.bufA s.lengthA)

/-- R115: the byte move followed by the inter-byte carry gives the bytes of SHL. -/
def Obligations.ByteShiftAgrees : Prop :=
  ∀ (n : Nat) (s : State), n < s.widthA → ∃ t, exec (.shl n) s = .next t ∧
    ∀ i, i < s.lengthA → t.bufA.read i = s.shiftedByte n i

/-- R156: packing with the residual-bits fragment gives the buffer of FROMCHUNKS. -/
def Obligations.ResidualPackerAgrees : Prop :=
  ∀ (n : Nat) (s : State), 1 ≤ n → n ≤ 32 → s.cfg.legal = true →
    (s.lengthS * n + 7) / 8 ≤ s.cfg.maxlen → ∃ t, exec (.fromchunks n) s = .next t ∧
    (List.range t.lengthA).map (fun i => t.bufA.read i) = s.residualBytes n

/-! ## Data movement -/

/-- R220: MOVAB copies the bytes of A below LEN_A and LEN_A into B; the rest of B keeps its values. -/
def Obligations.MovabCopiesAToB : Prop :=
  decode 0x00000040#32 = .ok .movab ∧
  ∀ s : State, ∃ t, exec .movab s = .next t ∧ t.lenB = s.lenA ∧
    (∀ i, t.bufB.read i = if i < s.lengthA then s.bufA.read i else s.bufB.read i) ∧
    SameA s t ∧ SameS s t ∧ SameFault s t ∧ SameHost s t ∧ t.flag = false ∧ t.res = s.res

/-- R221: SWAP exchanges the whole storage of A and B and their lengths; twice, it restores them. -/
def Obligations.SwapExchangesAAndB : Prop :=
  decode 0x00000041#32 = .ok .swap ∧
  ∀ s : State, ∃ t u, exec .swap s = .next t ∧ exec .swap t = .next u ∧
    t.lenA = s.lenB ∧ t.lenB = s.lenA ∧
    (∀ i, t.bufA.read i = s.bufB.read i) ∧ (∀ i, t.bufB.read i = s.bufA.read i) ∧
    SameS s t ∧ SameFault s t ∧ SameHost s t ∧ t.flag = false ∧ t.res = s.res ∧
    SameA s u ∧ SameB s u

/-! ## What commands may write and read -/

/-- R22, R28 and the families' conventions (R100, R150, R180), over every command: RES changes only by CMP,
LZC and TZC; B only by MOVAB and SWAP; LEN_A only by FROMBITS, FROMCHUNKS and SWAP; S only by BITS and CHUNKS;
and no command touches the host's side. -/
def Obligations.WhoWritesWhat : Prop :=
  ∀ (i : Instr) (s : State), ∃ t, exec i s = .next t ∧
    (i.mnemonic ≠ .cmp → i.mnemonic ≠ .lzc → i.mnemonic ≠ .tzc → t.res = s.res) ∧
    (i.mnemonic ≠ .movab → i.mnemonic ≠ .swap → SameB s t) ∧
    (i.mnemonic ≠ .frombits → i.mnemonic ≠ .fromchunks → i.mnemonic ≠ .swap → t.lenA = s.lenA) ∧
    (i.mnemonic ≠ .bits → i.mnemonic ≠ .chunks → SameS s t) ∧
    SameHost s t

/-- R25: a command other than SWAP writes only positions below the length after it. R221 has SWAP exchange the
whole storage; that R221 wins there is the model's reading, log entry 20. -/
def Obligations.BeyondLengthsNeverWritten : Prop :=
  ∀ (i : Instr) (s : State), s.Inv → i ≠ .swap → ∃ t, exec i s = .next t ∧
    (∀ p, t.lengthA ≤ p → t.bufA.read p = s.bufA.read p) ∧
    (∀ p, t.lengthB ≤ p → t.bufB.read p = s.bufB.read p) ∧
    (∀ p, t.lengthS ≤ p → t.bufS.read p = s.bufS.read p)

/-- R25: what a command leaves below the lengths, its status and its fault depend on nothing beyond the
lengths: two states that differ only there are taken to two states that differ only there. -/
def Obligations.BeyondLengthsNeverRead : Prop :=
  ∀ (i : Instr) (s s' : State), AgreeBelowLengths s s' →
    ∃ t t', exec i s = .next t ∧ exec i s' = .next t' ∧ AgreeBelowLengths t t'

/-! ## Faults -/

/-- R232, R234, R237: the fault of a command word, if any, its code, FINFO0 = the word and FINFO1 = the offset
of CMD, with everything else kept; a command that violates no contract raises none. -/
def Obligations.CommandFaultTable : Prop :=
  ∀ (w : Word) (s : State), ∃ t, executeWord w s = .next t ∧
    (∀ e, decode w = .error e → FaultEntered 1#4 w 0x00004#32 s t) ∧
    (∀ n ct, decode w = .ok (.chunks n ct) → (n < 1 ∨ min (ChunkType.width ct) 32 < n) →
      FaultEntered 2#4 w 0x00004#32 s t) ∧
    (∀ n, decode w = .ok (.fromchunks n) → (n < 1 ∨ 32 < n) → FaultEntered 2#4 w 0x00004#32 s t) ∧
    (∀ k, decode w = .ok (.bitget k) → 8 * s.lengthA ≤ k → FaultEntered 3#4 w 0x00004#32 s t) ∧
    (decode w = .ok .beor → s.lengthB < s.lengthA → FaultEntered 4#4 w 0x00004#32 s t) ∧
    (∀ n, decode w = .ok (.fromchunks n) → 1 ≤ n → n ≤ 32 →
      s.cfg.maxlen < (s.lengthS * n + 7) / 8 → FaultEntered 5#4 w 0x00004#32 s t) ∧
    (∀ i, decode w = .ok i → Contract i s = true → SameFault s t)

/-- R58, R235: in the faulted state a write of any mapped word is ignored and a read returns the current value.
R236: the state is left only by reset; that the item FAULT clears at the release of RST and not already at its
assertion is the model's reading of R260, log entry 6. -/
def Obligations.FaultedStateIsFrozen : Prop :=
  ∀ s : State, s.fault = true →
    (∀ r w rest, WriteNext s r w rest → step s = .next { s with pending := rest }) ∧
    (∀ r rest, ReadNext s r rest →
      step s = .next { s with pending := rest, rdata := some (readSlot s r) }) ∧
    (∀ t, step s = .next t → t.fault = false →
      s.rst = true ∧ ∃ rest, s.pending = .rst false :: rest)

/-- R236: over any number of steps without a change of RST, a faulted engine keeps its fault record and every
item the fault preserved. -/
def Obligations.FaultPersistsWithoutReset : Prop :=
  ∀ (n : Nat) (s t : State), s.fault = true → (∀ level, HostEvent.rst level ∉ s.pending) →
    Host.Core.run Sys2Proof.core n s = .next t →
    SameA s t ∧ SameB s t ∧ SameS s t ∧ t.flag = s.flag ∧ t.res = s.res ∧ SameFault s t

/-! ## The host window -/

/-- R51: the map gives each existing slot at its offset, and nothing else at a multiple of 4. -/
def Obligations.WindowMapIsExact : Prop :=
  ∀ (p : Params) (off : Nat) (r : Slot), p.legal = true → off < 0x80000 → off % 4 = 0 →
    (slotAt p off = some r ↔ r.offset = off ∧ r.exists p = true)

/-- R62: a read of a mapped word gives the word to the host and changes nothing else. -/
def Obligations.ReadsHaveNoSideEffect : Prop :=
  ∀ (s : State) (r : Slot) (rest : List HostEvent), ReadNext s r rest →
    step s = .next { s with pending := rest, rdata := some (readSlot s r) }

/-- R31, R32, R33, R60: what the read-only registers read, and the halves of RES. -/
def Obligations.RegisterReads : Prop :=
  ∀ s : State,
    readSlot s .id = 0x58420107#32 ∧
    (s.cfg.legal = true → (readSlot s .cap).toNat = s.cfg.maxlen) ∧
    (readSlot s .status).getLsbD 0 = s.flag ∧ (readSlot s .status).getLsbD 1 = s.fault ∧
    (readSlot s .status).toNat / 16 = (if s.fault then s.fcode.toNat else 0) ∧
    (readSlot s .status).toNat / 4 % 4 = 0 ∧
    readSlot s .resHi ++ readSlot s .resLo = s.res ∧
    (readSlot s .lenA).toNat = s.lengthA ∧ (readSlot s .lenB).toNat = s.lengthB ∧
    (readSlot s .lenS).toNat = s.lengthS ∧ readSlot s .finfo0 = s.finfo0 ∧ readSlot s .finfo1 = s.finfo1

/-- R57: a write to a read-only register has no effect, and a read of CMD returns 0 and has no effect. -/
def Obligations.ReadOnlyWritesIgnored : Prop :=
  (∀ (s : State) (r : Slot) (w : Word) (rest : List HostEvent),
    r ∈ [Slot.id, .status, .resLo, .resHi, .finfo0, .finfo1, .cap] → WriteNext s r w rest →
    step s = .next { s with pending := rest }) ∧
  ∀ (s : State) (rest : List HostEvent), ReadNext s .cmd rest →
    step s = .next { s with pending := rest, rdata := some 0#32 }

/-- R55: a length within capacity is taken; a larger one raises LEN_RANGE with the value and the register's
offset, and the register keeps its value. -/
def Obligations.LengthWrites : Prop :=
  ∀ (s : State) (w : Word) (rest : List HostEvent), s.fault = false →
    (WriteNext s .lenA w rest →
      (w.toNat ≤ s.cfg.maxlen →
        ∃ v : BitVec 16, v.toNat = w.toNat ∧ step s = .next { s with pending := rest, lenA := v }) ∧
      (s.cfg.maxlen < w.toNat →
        ∃ t, step s = .next t ∧ FaultEntered 6#4 w 0x00014#32 { s with pending := rest } t)) ∧
    (WriteNext s .lenB w rest →
      (w.toNat ≤ s.cfg.maxlen →
        ∃ v : BitVec 16, v.toNat = w.toNat ∧ step s = .next { s with pending := rest, lenB := v }) ∧
      (s.cfg.maxlen < w.toNat →
        ∃ t, step s = .next t ∧ FaultEntered 6#4 w 0x00018#32 { s with pending := rest } t)) ∧
    (WriteNext s .lenS w rest →
      (w.toNat ≤ 8 * s.cfg.maxlen →
        ∃ v : BitVec 16, v.toNat = w.toNat ∧ step s = .next { s with pending := rest, lenS := v }) ∧
      (8 * s.cfg.maxlen < w.toNat →
        ∃ t, step s = .next t ∧ FaultEntered 6#4 w 0x0001C#32 { s with pending := rest } t))

/-- R52, R53: a write of a byte window stores the low 8 bits in that byte alone, whatever the length is, and a
read of it returns the byte. -/
def Obligations.ByteWindows : Prop :=
  ∀ (s : State) (i : Nat) (w : Word) (rest : List HostEvent), s.fault = false →
    (WriteNext s (.byteA i) w rest → ∃ m, step s = .next { s with pending := rest, bufA := m } ∧
      (m.read i).toNat = w.toNat % 256 ∧ ∀ k, k ≠ i → m.read k = s.bufA.read k) ∧
    (WriteNext s (.byteB i) w rest → ∃ m, step s = .next { s with pending := rest, bufB := m } ∧
      (m.read i).toNat = w.toNat % 256 ∧ ∀ k, k ≠ i → m.read k = s.bufB.read k) ∧
    (ReadNext s (.byteA i) rest → ∃ v : Word, v.toNat = (s.bufA.read i).toNat ∧
      step s = .next { s with pending := rest, rdata := some v }) ∧
    (ReadNext s (.byteB i) rest → ∃ v : Word, v.toNat = (s.bufB.read i).toNat ∧
      step s = .next { s with pending := rest, rdata := some v })

/-- R54: each half of an element is written by its own offset, the other half kept, and a read returns it. -/
def Obligations.StreamWindows : Prop :=
  ∀ (s : State) (j : Nat) (w : Word) (rest : List HostEvent), s.fault = false →
    (WriteNext s (.elemLo j) w rest → ∃ m, step s = .next { s with pending := rest, bufS := m } ∧
      (m.read j).toNat = (s.bufS.read j).toNat / 2 ^ 32 * 2 ^ 32 + w.toNat ∧
      ∀ k, k ≠ j → m.read k = s.bufS.read k) ∧
    (WriteNext s (.elemHi j) w rest → ∃ m, step s = .next { s with pending := rest, bufS := m } ∧
      (m.read j).toNat = w.toNat * 2 ^ 32 + (s.bufS.read j).toNat % 2 ^ 32 ∧
      ∀ k, k ≠ j → m.read k = s.bufS.read k) ∧
    (ReadNext s (.elemLo j) rest → ∃ v : Word, v.toNat = (s.bufS.read j).toNat % 2 ^ 32 ∧
      step s = .next { s with pending := rest, rdata := some v }) ∧
    (ReadNext s (.elemHi j) rest → ∃ v : Word, v.toNat = (s.bufS.read j).toNat / 2 ^ 32 ∧
      step s = .next { s with pending := rest, rdata := some v })

/-- R56: an access of the one host inside the window is performed exactly when it is 32 bits wide, at a
multiple of 4, at an offset R51 maps; any other is refused. -/
def Obligations.AccessesWithoutMeaningAreRefused : Prop :=
  ∀ (s : State) (e : HostEvent) (off size : Nat) (rest : List HostEvent),
    (e = .read 0 (s.cfg.base + off) size ∨ ∃ w, e = .write 0 (s.cfg.base + off) size w) →
    s.pending = e :: rest → s.rst = false → s.cfg.legal = true → off < 0x80000 →
    (size = 4 ∧ off % 4 = 0 ∧ mappedOffset s.cfg off = true → ∃ t, step s = .next t) ∧
    (¬(size = 4 ∧ off % 4 = 0 ∧ mappedOffset s.cfg off = true) → ∃ f, step s = .refused f)

/-- R65, R260, R50: an access during reset and an access of a second master are refused by name. An access
outside the window stops with the model's own fault (the model's choice, log entry 7). -/
def Obligations.StrayAccessesStop : Prop :=
  ∀ (s : State) (e : HostEvent) (master addr size : Nat) (rest : List HostEvent),
    (e = .read master addr size ∨ ∃ w, e = .write master addr size w) → s.pending = e :: rest →
    (s.rst = true → step s = .refused .accessInReset) ∧
    (s.rst = false → master ≠ 0 → step s = .refused .secondHost) ∧
    (s.rst = false → master = 0 → (addr < s.cfg.base ∨ s.cfg.base + 0x80000 ≤ addr) →
      step s = .fault .outsideWindow)

/-! ## Reset and the invariant -/

/-- R37: after reset every item has the value the rule gives. -/
def Obligations.ResetValues : Prop :=
  (∀ i, State.reset.bufA.read i = 0x00#8 ∧ State.reset.bufB.read i = 0x00#8) ∧
  (∀ j, State.reset.bufS.read j = 0#64) ∧
  State.reset.lenA = 0#16 ∧ State.reset.lenB = 0#16 ∧ State.reset.lenS = 0#16 ∧
  State.reset.flag = false ∧ State.reset.res = 0#64 ∧ State.reset.fault = false ∧
  State.reset.fcode = 0#4 ∧ State.reset.finfo0 = 0#32 ∧ State.reset.finfo1 = 0#32

/-- R260: whatever the state, the release of an asserted RST gives every item its reset value; the parameters
and the host's remaining events are kept (log entry 6). -/
def Obligations.ReleaseOfRstResets : Prop :=
  ∀ (s : State) (rest : List HostEvent), s.rst = true → s.pending = .rst false :: rest →
    ∃ t, step s = .next t ∧ t.rst = false ∧ t.cfg = s.cfg ∧ t.pending = rest ∧
      (∀ i, t.bufA.read i = 0x00#8 ∧ t.bufB.read i = 0x00#8) ∧ (∀ j, t.bufS.read j = 0#64) ∧
      t.lenA = 0#16 ∧ t.lenB = 0#16 ∧ t.lenS = 0#16 ∧ t.flag = false ∧ t.res = 0#64 ∧
      t.fault = false ∧ t.fcode = 0#4 ∧ t.finfo0 = 0#32 ∧ t.finfo1 = 0#32

/-- The invariant of the machine holds at reset. -/
def Obligations.InvariantAtReset : Prop := State.reset.Inv

/-- Every step keeps the invariant: the lengths within capacity (R26), the buffers canonical and within
capacity (R20), and the fault record clear or one of R232 (R33, R232); and no step changes the parameters (R6). -/
def Obligations.StepKeepsInvariant : Prop :=
  ∀ s t : State, s.Inv → step s = .next t → t.Inv ∧ t.cfg = s.cfg
end

