-- ==== Sys2Proof/Laws/Decode.lean ====
section
/-! SUPPORT. The fields of a command word and of an encoded command. -/

namespace Sys2Proof

theorem opField_eq (w : Word) : opField w = w.toNat % 256 := by simp [opField]

theorem subField_eq (w : Word) : subField w = w.toNat / 256 % 256 := by
  simp [subField, Nat.shiftRight_eq_div_pow]

theorem immField_eq (w : Word) : immField w = w.toNat / 65536 := by
  have := w.isLt
  simp only [immField, BitVec.extractLsb'_toNat, Nat.shiftRight_eq_div_pow]
  omega

/-- The three fields make up the word (R81). -/
theorem toNat_eq_fields (w : Word) : w.toNat = immField w * 65536 + subField w * 256 + opField w := by
  rw [opField_eq, subField_eq, immField_eq]
  omega

theorem fieldsWord_toNat {imm sub op : Nat} (hi : imm < 65536) (hs : sub < 256) (ho : op < 256) :
    (fieldsWord imm sub op).toNat = imm * 65536 + sub * 256 + op := by
  simp only [fieldsWord, BitVec.toNat_ofNat]
  omega

@[simp] theorem opField_fieldsWord {imm sub op : Nat} (ho : op < 256) :
    opField (fieldsWord imm sub op) = op := by
  simp only [opField_eq, fieldsWord, BitVec.toNat_ofNat]
  omega

@[simp] theorem subField_fieldsWord {imm sub op : Nat} (hs : sub < 256) (ho : op < 256) :
    subField (fieldsWord imm sub op) = sub := by
  simp only [subField_eq, fieldsWord, BitVec.toNat_ofNat]
  omega

@[simp] theorem immField_fieldsWord {imm sub op : Nat} (hi : imm < 65536) (hs : sub < 256) (ho : op < 256) :
    immField (fieldsWord imm sub op) = imm := by
  rw [immField_eq, fieldsWord_toNat hi hs ho]
  omega

/-- A word is its fields put together (R81). -/
theorem fieldsWord_fields (w : Word) : fieldsWord (immField w) (subField w) (opField w) = w := by
  apply BitVec.eq_of_toNat_eq
  have h1 : opField w < 256 := by rw [opField_eq]; omega
  have h2 : subField w < 256 := by rw [subField_eq]; omega
  have h3 : immField w < 65536 := by rw [immField_eq]; have := w.isLt; omega
  rw [fieldsWord_toNat h3 h2 h1, toNat_eq_fields w]

theorem ChunkType.code_lt (ct : ChunkType) : ct.code < 4 := by cases ct <;> decide

@[simp] theorem chunkTypeOfCode_code (ct : ChunkType) : chunkTypeOfCode ct.code = ct := by
  cases ct <;> rfl

theorem code_chunkTypeOfCode {k : Nat} (h : k < 4) : (chunkTypeOfCode k).code = k := by
  match k, h with
  | 0, _ => rfl
  | 1, _ => rfl
  | 2, _ => rfl
  | 3, _ => rfl

theorem Mnemonic.op_lt (m : Mnemonic) : m.op < 256 := by cases m <;> decide

theorem decodeF0_ok_iff (w : Word) (i j : Instr) :
    decodeF0 w i = .ok j ↔ j = i ∧ immField w = 0 ∧ subField w = 0 := by
  unfold decodeF0
  split
  · rename_i h
    rw [Except.ok.injEq]
    exact ⟨fun e => ⟨e.symm, h⟩, fun e => e.1.symm⟩
  · rename_i h
    exact ⟨(nomatch ·), fun e => absurd e.2 h⟩

theorem decodeFI_ok_iff (w : Word) (f : Nat → Instr) (j : Instr) :
    decodeFI w f = .ok j ↔ j = f (immField w) ∧ subField w = 0 := by
  unfold decodeFI
  split
  · rename_i h
    rw [Except.ok.injEq]
    exact ⟨fun e => ⟨e.symm, h⟩, fun e => e.1.symm⟩
  · rename_i h
    exact ⟨(nomatch ·), fun e => absurd e.2 h⟩

theorem decodeFC_ok_iff (w : Word) (f : Nat → ChunkType → Instr) (j : Instr) :
    decodeFC w f = .ok j ↔
      j = f (immField w) (chunkTypeOfCode (subField w % 4)) ∧ subField w / 4 = 0 := by
  unfold decodeFC
  split
  · rename_i h
    rw [Except.ok.injEq]
    exact ⟨fun e => ⟨e.symm, h⟩, fun e => e.1.symm⟩
  · rename_i h
    exact ⟨(nomatch ·), fun e => absurd e.2 h⟩

end Sys2Proof
end

