-- ==== Sys2Proof/Laws/Memory.lean ====
section
/-! SUPPORT. The laws of the storage operations: what a read gives after each of them, and that each of them
keeps the canonical form and the capacity. -/

namespace Sys2Proof.Machine

variable {w : Nat}

@[simp] theorem Memory.read_nil (i : Nat) : Memory.read ([] : Memory w) i = 0#w := rfl

theorem Memory.read_cons (k : Nat) (v : BitVec w) (m : Memory w) (i : Nat) :
    Memory.read ((k, v) :: m) i = if k = i then v else Memory.read m i := rfl

/-- A position that nothing lists reads 0. -/
theorem Memory.read_of_not_listed (m : Memory w) (i : Nat) (h : ∀ c ∈ m, c.1 ≠ i) :
    Memory.read m i = 0#w := by
  induction m with
  | nil => rfl
  | cons c m ih =>
    obtain ⟨k, v⟩ := c
    rw [Memory.read_cons, if_neg (h (k, v) (by simp))]
    exact ih fun d hd => h d (by simp [hd])

/-- In a joined list the left part answers for the positions it lists. -/
theorem Memory.read_append_of_not_listed (m m' : Memory w) (i : Nat) (h : ∀ c ∈ m, c.1 ≠ i) :
    Memory.read (m ++ m') i = Memory.read m' i := by
  induction m with
  | nil => rfl
  | cons c m ih =>
    obtain ⟨k, v⟩ := c
    rw [List.cons_append, Memory.read_cons, if_neg (h (k, v) (by simp))]
    exact ih fun d hd => h d (by simp [hd])

/-- In a joined list a position the right part does not list is answered by the left part. -/
theorem Memory.read_append_left (m m' : Memory w) (i : Nat) (h : ∀ c ∈ m', c.1 ≠ i) :
    Memory.read (m ++ m') i = Memory.read m i := by
  induction m with
  | nil => simpa using Memory.read_of_not_listed m' i h
  | cons c m ih =>
    obtain ⟨k, v⟩ := c
    rw [List.cons_append, Memory.read_cons, Memory.read_cons, ih]

/-- Keeping the positions that satisfy a test keeps what each of them reads. -/
theorem Memory.read_filter (m : Memory w) (p : Nat → Bool) (i : Nat) (hi : p i = true) :
    Memory.read (m.filter (fun c => p c.1)) i = Memory.read m i := by
  induction m with
  | nil => rfl
  | cons c m ih =>
    obtain ⟨k, v⟩ := c
    by_cases hk : k = i
    · subst hk
      simp [hi, Memory.read_cons]
    · by_cases hp : p k = true <;> simp [hp, Memory.read_cons, hk, ih]

theorem Memory.mem_cell_fst {i : Nat} {v : BitVec w} {c : Nat × BitVec w}
    (h : c ∈ (Memory.cell i v).toList) : c.1 = i := by
  unfold Memory.cell at h
  split at h <;> simp at h
  simp [h]

theorem Memory.read_cell (i : Nat) (v : BitVec w) : Memory.read (Memory.cell i v).toList i = v := by
  unfold Memory.cell
  split <;> simp [Memory.read_cons, *]

/-- The listed part of `fill`: positions `0..n-1` in rising order, the zero values left out. -/
theorem Memory.read_cells (f : Nat → BitVec w) (n i : Nat) :
    Memory.read ((List.range n).filterMap (fun i => Memory.cell i (f i))) i =
      if i < n then f i else 0#w := by
  induction n with
  | zero => simp
  | succ n ih =>
    have hfm : (List.filterMap (fun i => Memory.cell i (f i)) [n]) = (Memory.cell n (f n)).toList := by
      cases h : Memory.cell n (f n) <;> simp [h]
    rw [List.range_succ, List.filterMap_append, hfm]
    by_cases hi : i = n
    · subst hi
      rw [Memory.read_append_of_not_listed, Memory.read_cell, if_pos (by omega)]
      intro c hc
      obtain ⟨j, hj, hcj⟩ := List.mem_filterMap.mp hc
      have := Memory.mem_cell_fst (c := c) (i := j) (v := f j) (by simp [hcj])
      have := List.mem_range.mp hj
      omega
    · rw [Memory.read_append_left, ih]
      · by_cases h : i < n
        · rw [if_pos h, if_pos (by omega)]
        · rw [if_neg h, if_neg (by omega)]
      · intro c hc
        have := Memory.mem_cell_fst hc
        omega

/-- The positions `fill` lists below `n` lie below `n`. -/
theorem Memory.cells_lt (f : Nat → BitVec w) (n : Nat) {c : Nat × BitVec w}
    (h : c ∈ (List.range n).filterMap (fun i => Memory.cell i (f i))) : c.1 < n := by
  obtain ⟨j, hj, hcj⟩ := List.mem_filterMap.mp h
  have := Memory.mem_cell_fst (c := c) (i := j) (v := f j) (by simp [hcj])
  have := List.mem_range.mp hj
  omega

/-- A read after `fill`: below `n` the new value, elsewhere the old one (R25). -/
theorem Memory.read_fill (m : Memory w) (n : Nat) (f : Nat → BitVec w) (i : Nat) :
    (Memory.fill m n f).read i = if i < n then f i else m.read i := by
  unfold Memory.fill
  by_cases h : i < n
  · rw [Memory.read_append_left, Memory.read_cells]
    · simp [h]
    · intro c hc
      simp at hc
      omega
  · rw [Memory.read_append_of_not_listed, if_neg h]
    · exact Memory.read_filter m (fun k => decide (n ≤ k)) i (by simp; omega)
    · intro c hc
      have := Memory.cells_lt f n hc
      omega

@[simp] theorem Memory.read_fill_of_lt (m : Memory w) (n : Nat) (f : Nat → BitVec w) (i : Nat) (h : i < n) :
    (Memory.fill m n f).read i = f i := by rw [Memory.read_fill, if_pos h]

@[simp] theorem Memory.read_fill_of_le (m : Memory w) (n : Nat) (f : Nat → BitVec w) (i : Nat) (h : n ≤ i) :
    (Memory.fill m n f).read i = m.read i := by rw [Memory.read_fill, if_neg (by omega)]

/-- A read after `write`: the written position has the new value, every other one the old (R52, R54). -/
theorem Memory.read_write (m : Memory w) (i : Nat) (v : BitVec w) (j : Nat) :
    (Memory.write m i v).read j = if j = i then v else m.read j := by
  unfold Memory.write
  rw [List.append_assoc]
  by_cases hj : j = i
  · subst hj
    rw [Memory.read_append_of_not_listed, Memory.read_append_left, Memory.read_cell, if_pos rfl]
    · intro c hc
      simp at hc
      omega
    · intro c hc
      simp at hc
      omega
  · rw [if_neg hj]
    by_cases hlt : j < i
    · rw [Memory.read_append_left]
      · exact Memory.read_filter m (fun k => decide (k < i)) j (by simpa using hlt)
      · intro c hc
        rcases List.mem_append.mp hc with hc | hc
        · have := Memory.mem_cell_fst hc
          omega
        · simp at hc
          omega
    · rw [Memory.read_append_of_not_listed, Memory.read_append_of_not_listed]
      · exact Memory.read_filter m (fun k => decide (i < k)) j (by simp; omega)
      · intro c hc
        have := Memory.mem_cell_fst hc
        omega
      · intro c hc
        simp at hc
        omega

@[simp] theorem Memory.read_write_self (m : Memory w) (i : Nat) (v : BitVec w) :
    (Memory.write m i v).read i = v := by rw [Memory.read_write, if_pos rfl]

@[simp] theorem Memory.read_write_other (m : Memory w) (i : Nat) (v : BitVec w) (j : Nat) (h : j ≠ i) :
    (Memory.write m i v).read j = m.read j := by rw [Memory.read_write, if_neg h]

/-! ## The canonical form -/

theorem Memory.wf_iff (m : Memory w) :
    m.wf = true ↔ m.Pairwise (fun c d => c.1 < d.1) ∧ ∀ c ∈ m, c.2 ≠ 0#w := by
  simp [Memory.wf]

theorem Memory.within_iff (m : Memory w) (cap : Nat) :
    m.within cap = true ↔ ∀ c ∈ m, c.1 < cap := by
  simp [Memory.within]

theorem Memory.cell_value_ne_zero {i : Nat} {v : BitVec w} {c : Nat × BitVec w}
    (h : c ∈ (Memory.cell i v).toList) : c.2 ≠ 0#w := by
  unfold Memory.cell at h
  split at h <;> simp at h
  simpa [h]

theorem Memory.cells_wf (f : Nat → BitVec w) (n : Nat) :
    Memory.wf ((List.range n).filterMap (fun i => Memory.cell i (f i))) = true := by
  rw [Memory.wf_iff]
  constructor
  · rw [List.pairwise_filterMap]
    refine List.pairwise_lt_range.imp ?_
    intro a b hab c hc d hd
    have h1 := Memory.mem_cell_fst (c := c) (i := a) (v := f a) (by simp [hc])
    have h2 := Memory.mem_cell_fst (c := d) (i := b) (v := f b) (by simp [hd])
    omega
  · intro c hc
    obtain ⟨j, _, hcj⟩ := List.mem_filterMap.mp hc
    exact Memory.cell_value_ne_zero (i := j) (v := f j) (by simp [hcj])

/-- Joining two canonical listings whose positions are in order gives a canonical listing. -/
theorem Memory.append_wf {m m' : Memory w} (h : m.wf = true) (h' : m'.wf = true)
    (hlt : ∀ c ∈ m, ∀ d ∈ m', c.1 < d.1) : Memory.wf (m ++ m') = true := by
  rw [Memory.wf_iff] at *
  refine ⟨List.pairwise_append.mpr ⟨h.1, h'.1, hlt⟩, ?_⟩
  intro c hc
  rcases List.mem_append.mp hc with hc | hc
  · exact h.2 c hc
  · exact h'.2 c hc

theorem Memory.filter_wf {m : Memory w} (h : m.wf = true) (p : Nat × BitVec w → Bool) :
    Memory.wf (m.filter p) = true := by
  rw [Memory.wf_iff] at *
  exact ⟨h.1.filter p, fun c hc => h.2 c (List.mem_filter.mp hc).1⟩

theorem Memory.cell_wf (i : Nat) (v : BitVec w) : Memory.wf (Memory.cell i v).toList = true := by
  unfold Memory.cell
  split <;> simp [Memory.wf, *]

/-- `fill` keeps the canonical form. -/
theorem Memory.fill_wf {m : Memory w} (h : m.wf = true) (n : Nat) (f : Nat → BitVec w) :
    (Memory.fill m n f).wf = true := by
  refine Memory.append_wf (Memory.cells_wf f n) (Memory.filter_wf h _) ?_
  intro c hc d hd
  have := Memory.cells_lt f n hc
  simp at hd
  omega

/-- `write` keeps the canonical form. -/
theorem Memory.write_wf {m : Memory w} (h : m.wf = true) (i : Nat) (v : BitVec w) :
    (Memory.write m i v).wf = true := by
  refine Memory.append_wf (Memory.append_wf (Memory.filter_wf h _) (Memory.cell_wf i v) ?_)
    (Memory.filter_wf h _) ?_
  · intro c hc d hd
    have := Memory.mem_cell_fst hd
    simp at hc
    omega
  · intro c hc d hd
    simp at hd
    rcases List.mem_append.mp hc with hc | hc
    · simp at hc
      omega
    · have := Memory.mem_cell_fst hc
      omega

/-- `fill` up to a capacity keeps the capacity. -/
theorem Memory.fill_within {m : Memory w} {cap : Nat} (h : m.within cap = true) {n : Nat} (hn : n ≤ cap)
    (f : Nat → BitVec w) : (Memory.fill m n f).within cap = true := by
  rw [Memory.within_iff] at *
  intro c hc
  rcases List.mem_append.mp hc with hc | hc
  · have := Memory.cells_lt f n hc
    omega
  · exact h c (List.mem_filter.mp hc).1

/-- `write` below a capacity keeps the capacity. -/
theorem Memory.write_within {m : Memory w} {cap : Nat} (h : m.within cap = true) {i : Nat} (hi : i < cap)
    (v : BitVec w) : (Memory.write m i v).within cap = true := by
  rw [Memory.within_iff] at *
  intro c hc
  rcases List.mem_append.mp hc with hc | hc
  · rcases List.mem_append.mp hc with hc | hc
    · exact h c (List.mem_filter.mp hc).1
    · have := Memory.mem_cell_fst hc
      omega
  · exact h c (List.mem_filter.mp hc).1

/-- A position a capacity excludes reads 0. -/
theorem Memory.read_beyond {m : Memory w} {cap : Nat} (h : m.within cap = true) {i : Nat} (hi : cap ≤ i) :
    m.read i = 0#w := by
  rw [Memory.within_iff] at h
  exact Memory.read_of_not_listed m i fun c hc => by have := h c hc; omega

/-- A canonical listing lists exactly the positions that do not read 0. -/
theorem Memory.mem_iff_read {m : Memory w} (h : m.wf = true) (i : Nat) (v : BitVec w) :
    (i, v) ∈ m ↔ m.read i = v ∧ v ≠ 0#w := by
  induction m with
  | nil =>
    simp only [List.not_mem_nil, Memory.read_nil, false_iff, not_and, not_not]
    exact fun hv => hv.symm
  | cons c m ih =>
    obtain ⟨k, u⟩ := c
    have hw := (Memory.wf_iff _).mp h
    have hm : Memory.wf m = true :=
      (Memory.wf_iff m).mpr ⟨(List.pairwise_cons.mp hw.1).2, fun c hc => hw.2 c (by simp [hc])⟩
    rw [Memory.read_cons]
    by_cases hk : k = i
    · subst hk
      have hu : u ≠ 0#w := hw.2 (k, u) (by simp)
      have hnot : (k, v) ∉ m := fun hv => by
        have := (List.pairwise_cons.mp hw.1).1 (k, v) hv
        simp at this
      simp only [List.mem_cons, Prod.mk.injEq, true_and, hnot, or_false, if_true]
      constructor
      · rintro rfl
        exact ⟨rfl, hu⟩
      · exact fun hv => hv.1.symm
    · rw [if_neg hk, ← ih hm]
      simp [Ne.symm hk]

/-- Two canonical listings with the same reads are the same data. -/
theorem Memory.eq_of_read_eq {m m' : Memory w} (h : m.wf = true) (h' : m'.wf = true)
    (hr : ∀ i, m.read i = m'.read i) : m = m' := by
  have hmem : ∀ c, c ∈ m ↔ c ∈ m' := fun ⟨i, v⟩ => by
    rw [Memory.mem_iff_read h, Memory.mem_iff_read h', hr]
  have hp := ((Memory.wf_iff m).mp h).1
  have hp' := ((Memory.wf_iff m').mp h').1
  have hnd : m.Nodup := hp.imp (fun hab heq => by simp [heq] at hab)
  have hnd' : m'.Nodup := hp'.imp (fun hab heq => by simp [heq] at hab)
  exact ((List.perm_ext_iff_of_nodup hnd hnd').mpr hmem).eq_of_pairwise
    (fun a b _ _ hab hba => absurd hab (by omega)) hp hp'

end Sys2Proof.Machine
end

