-- ==== Sys2Proof/Laws/Operands.lean ====
section
/-! SUPPORT. The laws of integer readings, bit sequences, counts and packed bits. -/

namespace Sys2Proof.Machine

/-! ## Integers -/

theorem valBE_succ (m : Memory 8) (n : Nat) : valBE m (n + 1) = valBE m n * 256 + (m.read n).toNat := rfl

theorem two_pow_eight_mul_succ (n : Nat) : 2 ^ (8 * (n + 1)) = 2 ^ (8 * n) * 256 := by
  rw [Nat.mul_succ, Nat.pow_add]

/-- A value of `L` bytes fits in `8 * L` bits (R9). -/
theorem valBE_lt (m : Memory 8) (L : Nat) : valBE m L < 2 ^ (8 * L) := by
  induction L with
  | zero => simp [valBE]
  | succ n ih =>
    rw [valBE_succ, two_pow_eight_mul_succ]
    have := (m.read n).isLt
    omega

/-- The value depends only on the bytes below the length (R25). -/
theorem valBE_congr {m m' : Memory 8} {L : Nat} (h : ∀ i, i < L → m'.read i = m.read i) :
    valBE m' L = valBE m L := by
  induction L with
  | zero => rfl
  | succ n ih =>
    rw [valBE_succ, valBE_succ, ih fun i hi => h i (by omega), h n (by omega)]

/-- The value as the sum of R9. -/
theorem valBE_eq_sum (m : Memory 8) (L : Nat) :
    valBE m L = ∑ i ∈ Finset.range L, (m.read i).toNat * 2 ^ (8 * (L - 1 - i)) := by
  induction L with
  | zero => rfl
  | succ n ih =>
    rw [valBE_succ, ih, Finset.sum_range_succ, Finset.sum_mul]
    congr 1
    · refine Finset.sum_congr rfl fun i hi => ?_
      have hi := Finset.mem_range.mp hi
      rw [show 8 * (n + 1 - 1 - i) = 8 * (n - 1 - i) + 8 by omega, Nat.pow_add]
      ring
    · simp

/-- The top `i` of `n` bytes: dropping the low bytes divides. -/
theorem valBE_div (m : Memory 8) (k n : Nat) : valBE m (n + k) / 2 ^ (8 * k) = valBE m n := by
  induction k with
  | zero => simp
  | succ k ih =>
    rw [show n + (k + 1) = (n + k) + 1 by omega, valBE_succ, two_pow_eight_mul_succ,
      Nat.mul_comm (2 ^ (8 * k)) 256, ← Nat.div_div_eq_div_mul]
    have := (m.read (n + k)).isLt
    rw [show (valBE m (n + k) * 256 + (m.read (n + k)).toNat) / 256 = valBE m (n + k) by omega, ih]

/-- `bytesBE` undoes `valBE` (R9). -/
theorem bytesBE_valBE (m : Memory 8) {L i : Nat} (h : i < L) : bytesBE (valBE m L) L i = m.read i := by
  have hdiv := valBE_div m (L - 1 - i) (i + 1)
  rw [show i + 1 + (L - 1 - i) = L by omega] at hdiv
  unfold bytesBE
  rw [hdiv, valBE_succ]
  apply BitVec.eq_of_toNat_eq
  have := (m.read i).isLt
  simp only [BitVec.toNat_ofNat]
  omega

/-- `valBE` undoes `bytesBE`, modulo the width (R9). -/
theorem valBE_fill_bytesBE (m : Memory 8) (v : Nat) (L : Nat) :
    valBE (m.fill L (bytesBE v L)) L = v % 2 ^ (8 * L) := by
  have key : ∀ n k, n + k = L →
      valBE (m.fill L (bytesBE v L)) n = v / 2 ^ (8 * k) % 2 ^ (8 * n) := by
    intro n
    induction n with
    | zero => simp [valBE, Nat.mod_one]
    | succ n ih =>
      intro k hk
      rw [valBE_succ, ih (k + 1) (by omega), Memory.read_fill_of_lt _ _ _ _ (by omega)]
      unfold bytesBE
      rw [show L - 1 - n = k by omega, BitVec.toNat_ofNat, two_pow_eight_mul_succ,
        two_pow_eight_mul_succ, ← Nat.div_div_eq_div_mul, Nat.mul_comm (2 ^ (8 * n)) 256,
        Nat.mod_mul]
      omega
  simpa using key L 0 (by omega)

/-- Two listings with the same value have the same bytes below the length. -/
theorem read_eq_of_valBE_eq {m m' : Memory 8} {L : Nat} (h : valBE m' L = valBE m L) {i : Nat} (hi : i < L) :
    m'.read i = m.read i := by
  rw [← bytesBE_valBE m' hi, ← bytesBE_valBE m hi, h]

/-- Position `j` of the bit sequence is bit `8L - 1 - j` of the value (R8, R9). -/
theorem bitAt_eq_testBit (m : Memory 8) {L j : Nat} (h : j < 8 * L) :
    bitAt m j = (valBE m L).testBit (8 * L - 1 - j) := by
  have hi : j / 8 < L := by omega
  unfold bitAt
  rw [← bytesBE_valBE m hi, BitVec.getLsbD, bytesBE, BitVec.toNat_ofNat, Nat.testBit_mod_two_pow,
    Nat.testBit_div_two_pow]
  have h7 : 7 - j % 8 < 8 := by omega
  rw [decide_eq_true h7, Bool.true_and]
  congr 1
  omega

/-! ## Counts -/

/-- A value below `2^W` has no leading bit set among the first `leadingZeros`. -/
theorem leadingZeros_le (v W : Nat) : leadingZeros v W ≤ W := by
  induction W with
  | zero => simp [leadingZeros]
  | succ w ih =>
    unfold leadingZeros
    split <;> omega

/-- Every bit counted as a leading zero is 0, and the bit below them, if any, is 1 (R10). -/
theorem leadingZeros_spec (v W : Nat) :
    (∀ k, k < leadingZeros v W → v.testBit (W - 1 - k) = false) ∧
      (leadingZeros v W < W → v.testBit (W - 1 - leadingZeros v W) = true) := by
  induction W with
  | zero => simp [leadingZeros]
  | succ w ih =>
    unfold leadingZeros
    by_cases h : v.testBit w = true
    · simp [h]
    · rw [if_neg h]
      refine ⟨fun k hk => ?_, fun hlt => ?_⟩
      · rcases Nat.eq_zero_or_pos k with rfl | hpos
        · simpa using h
        · rw [show w + 1 - 1 - k = w - 1 - (k - 1) by omega]
          exact ih.1 (k - 1) (by omega)
      · rw [show w + 1 - 1 - (1 + leadingZeros v w) = w - 1 - leadingZeros v w by omega]
        exact ih.2 (by omega)

theorem trailingZeros_le (v W : Nat) : trailingZeros v W ≤ W := by
  induction W generalizing v with
  | zero => simp [trailingZeros]
  | succ w ih =>
    unfold trailingZeros
    have := ih (v / 2)
    split <;> omega

/-- Every bit counted as a trailing zero is 0, and the bit above them, if any, is 1 (R10). -/
theorem trailingZeros_spec (v W : Nat) :
    (∀ k, k < trailingZeros v W → v.testBit k = false) ∧
      (trailingZeros v W < W → v.testBit (trailingZeros v W) = true) := by
  induction W generalizing v with
  | zero => simp [trailingZeros]
  | succ w ih =>
    unfold trailingZeros
    by_cases h : v % 2 = 1
    · rw [if_pos h]
      refine ⟨fun k hk => by omega, fun _ => ?_⟩
      rw [Nat.testBit_zero, decide_eq_true h]
    · rw [if_neg h]
      refine ⟨fun k hk => ?_, fun hlt => ?_⟩
      · cases k with
        | zero => rw [Nat.testBit_zero, decide_eq_false h]
        | succ k =>
          rw [Nat.testBit_succ]
          exact (ih (v / 2)).1 k (by omega)
      · rw [Nat.add_comm, Nat.testBit_succ]
        exact (ih (v / 2)).2 (by omega)

/-- `bitlen` is the smallest `k` with `v < 2^k` (R10). -/
theorem bitlen_le_iff (v k : Nat) : bitlen v ≤ k ↔ v < 2 ^ k := by
  unfold bitlen
  split
  · subst v
    simp
  · rename_i h
    rw [Nat.succ_le_iff, Nat.log2_lt h]

/-! ## Packed bits -/

theorem packMsb_succ (f : Nat → Bool) (n : Nat) : packMsb f (n + 1) = 2 * packMsb f n + (f n).toNat := rfl

/-- `n` packed bits fit in `n` bits. -/
theorem packMsb_lt (f : Nat → Bool) (n : Nat) : packMsb f n < 2 ^ n := by
  induction n with
  | zero => simp [packMsb]
  | succ n ih =>
    rw [packMsb_succ, Nat.pow_succ]
    have := Bool.toNat_lt (f n)
    omega

theorem packMsb_congr {f g : Nat → Bool} {n : Nat} (h : ∀ t, t < n → f t = g t) :
    packMsb f n = packMsb g n := by
  induction n with
  | zero => rfl
  | succ n ih => rw [packMsb_succ, packMsb_succ, ih fun t ht => h t (by omega), h n (by omega)]

/-- Bit `k` of `n` packed bits is the bit taken `k` places before the last (R150). -/
theorem packMsb_testBit (f : Nat → Bool) (n k : Nat) :
    (packMsb f n).testBit k = (decide (k < n) && f (n - 1 - k)) := by
  induction n generalizing k with
  | zero => simp [packMsb]
  | succ n ih =>
    rw [packMsb_succ]
    cases k with
    | zero =>
      rw [Nat.testBit_zero]
      cases hf : f n <;> simp [Nat.add_mod, hf]
    | succ k =>
      rw [Nat.testBit_succ, show (2 * packMsb f n + (f n).toNat) / 2 = packMsb f n by
        have := Bool.toNat_lt (f n); omega, ih]
      by_cases hk : k < n
      · simp [hk, show n - (k + 1) = n - 1 - k by omega]
      · simp [hk]

/-- The packed value as the sum of R153 and R154. -/
theorem packMsb_eq_sum (f : Nat → Bool) (n : Nat) :
    packMsb f n = ∑ t ∈ Finset.range n, (f t).toNat * 2 ^ (n - 1 - t) := by
  induction n with
  | zero => rfl
  | succ n ih =>
    rw [packMsb_succ, ih, Finset.sum_range_succ, Finset.mul_sum]
    congr 1
    · refine Finset.sum_congr rfl fun t ht => ?_
      have ht := Finset.mem_range.mp ht
      rw [show n + 1 - 1 - t = (n - 1 - t) + 1 by omega, Nat.pow_succ]
      ring
    · simp

/-- The value of a packed byte. -/
theorem packByte_toNat (f : Nat → Bool) (i : Nat) :
    (packByte f i).toNat = packMsb (fun t => f (8 * i + t)) 8 := by
  unfold packByte
  rw [BitVec.toNat_ofNat]
  exact Nat.mod_eq_of_lt (packMsb_lt _ 8)

/-- A bit of a packed byte. -/
theorem packByte_getLsbD (f : Nat → Bool) (i k : Nat) (h : k < 8) :
    (packByte f i).getLsbD k = f (8 * i + (7 - k)) := by
  rw [BitVec.getLsbD, packByte_toNat, packMsb_testBit]
  simp [h]

/-- The bit sequence of a buffer filled with packed bytes is the sequence packed. -/
theorem bitAt_fill_packByte (m : Memory 8) (f : Nat → Bool) {n j : Nat} (h : j < 8 * n) :
    bitAt (m.fill n (packByte f)) j = f j := by
  unfold bitAt
  rw [Memory.read_fill_of_lt _ _ _ _ (by omega), packByte_getLsbD _ _ _ (by omega)]
  congr 1
  omega

end Sys2Proof.Machine
end

