-- ==== Sys2Proof/Laws/State.lean ====
section
/-! SUPPORT. One lemma per field per named update of the state, each true by `rfl`. -/

namespace Sys2Proof.Machine

variable (s : State)

/-! ## `State.storeA` -/

@[simp] theorem State.storeA_bufA (f : Nat → Byte) : (s.storeA f).bufA = s.bufA.fill s.lenA.toNat f := rfl
@[simp] theorem State.storeA_lenA (f : Nat → Byte) : (s.storeA f).lenA = s.lenA := rfl
@[simp] theorem State.storeA_bufB (f : Nat → Byte) : (s.storeA f).bufB = s.bufB := rfl
@[simp] theorem State.storeA_lenB (f : Nat → Byte) : (s.storeA f).lenB = s.lenB := rfl
@[simp] theorem State.storeA_bufS (f : Nat → Byte) : (s.storeA f).bufS = s.bufS := rfl
@[simp] theorem State.storeA_lenS (f : Nat → Byte) : (s.storeA f).lenS = s.lenS := rfl
@[simp] theorem State.storeA_flag (f : Nat → Byte) : (s.storeA f).flag = s.flag := rfl
@[simp] theorem State.storeA_res (f : Nat → Byte) : (s.storeA f).res = s.res := rfl
@[simp] theorem State.storeA_fault (f : Nat → Byte) : (s.storeA f).fault = s.fault := rfl
@[simp] theorem State.storeA_fcode (f : Nat → Byte) : (s.storeA f).fcode = s.fcode := rfl
@[simp] theorem State.storeA_finfo0 (f : Nat → Byte) : (s.storeA f).finfo0 = s.finfo0 := rfl
@[simp] theorem State.storeA_finfo1 (f : Nat → Byte) : (s.storeA f).finfo1 = s.finfo1 := rfl
@[simp] theorem State.storeA_cfg (f : Nat → Byte) : (s.storeA f).cfg = s.cfg := rfl
@[simp] theorem State.storeA_rst (f : Nat → Byte) : (s.storeA f).rst = s.rst := rfl
@[simp] theorem State.storeA_pending (f : Nat → Byte) : (s.storeA f).pending = s.pending := rfl
@[simp] theorem State.storeA_rdata (f : Nat → Byte) : (s.storeA f).rdata = s.rdata := rfl

/-! ## `State.storeValueA` -/

@[simp] theorem State.storeValueA_bufA (v : Nat) : (s.storeValueA v).bufA = s.bufA.fill s.lenA.toNat (bytesBE v s.lengthA) := rfl
@[simp] theorem State.storeValueA_lenA (v : Nat) : (s.storeValueA v).lenA = s.lenA := rfl
@[simp] theorem State.storeValueA_bufB (v : Nat) : (s.storeValueA v).bufB = s.bufB := rfl
@[simp] theorem State.storeValueA_lenB (v : Nat) : (s.storeValueA v).lenB = s.lenB := rfl
@[simp] theorem State.storeValueA_bufS (v : Nat) : (s.storeValueA v).bufS = s.bufS := rfl
@[simp] theorem State.storeValueA_lenS (v : Nat) : (s.storeValueA v).lenS = s.lenS := rfl
@[simp] theorem State.storeValueA_flag (v : Nat) : (s.storeValueA v).flag = s.flag := rfl
@[simp] theorem State.storeValueA_res (v : Nat) : (s.storeValueA v).res = s.res := rfl
@[simp] theorem State.storeValueA_fault (v : Nat) : (s.storeValueA v).fault = s.fault := rfl
@[simp] theorem State.storeValueA_fcode (v : Nat) : (s.storeValueA v).fcode = s.fcode := rfl
@[simp] theorem State.storeValueA_finfo0 (v : Nat) : (s.storeValueA v).finfo0 = s.finfo0 := rfl
@[simp] theorem State.storeValueA_finfo1 (v : Nat) : (s.storeValueA v).finfo1 = s.finfo1 := rfl
@[simp] theorem State.storeValueA_cfg (v : Nat) : (s.storeValueA v).cfg = s.cfg := rfl
@[simp] theorem State.storeValueA_rst (v : Nat) : (s.storeValueA v).rst = s.rst := rfl
@[simp] theorem State.storeValueA_pending (v : Nat) : (s.storeValueA v).pending = s.pending := rfl
@[simp] theorem State.storeValueA_rdata (v : Nat) : (s.storeValueA v).rdata = s.rdata := rfl

/-! ## `State.newA` -/

@[simp] theorem State.newA_bufA (n : Nat) (f : Nat → Byte) : (s.newA n f).bufA = s.bufA.fill n f := rfl
@[simp] theorem State.newA_lenA (n : Nat) (f : Nat → Byte) : (s.newA n f).lenA = BitVec.ofNat 16 n := rfl
@[simp] theorem State.newA_bufB (n : Nat) (f : Nat → Byte) : (s.newA n f).bufB = s.bufB := rfl
@[simp] theorem State.newA_lenB (n : Nat) (f : Nat → Byte) : (s.newA n f).lenB = s.lenB := rfl
@[simp] theorem State.newA_bufS (n : Nat) (f : Nat → Byte) : (s.newA n f).bufS = s.bufS := rfl
@[simp] theorem State.newA_lenS (n : Nat) (f : Nat → Byte) : (s.newA n f).lenS = s.lenS := rfl
@[simp] theorem State.newA_flag (n : Nat) (f : Nat → Byte) : (s.newA n f).flag = s.flag := rfl
@[simp] theorem State.newA_res (n : Nat) (f : Nat → Byte) : (s.newA n f).res = s.res := rfl
@[simp] theorem State.newA_fault (n : Nat) (f : Nat → Byte) : (s.newA n f).fault = s.fault := rfl
@[simp] theorem State.newA_fcode (n : Nat) (f : Nat → Byte) : (s.newA n f).fcode = s.fcode := rfl
@[simp] theorem State.newA_finfo0 (n : Nat) (f : Nat → Byte) : (s.newA n f).finfo0 = s.finfo0 := rfl
@[simp] theorem State.newA_finfo1 (n : Nat) (f : Nat → Byte) : (s.newA n f).finfo1 = s.finfo1 := rfl
@[simp] theorem State.newA_cfg (n : Nat) (f : Nat → Byte) : (s.newA n f).cfg = s.cfg := rfl
@[simp] theorem State.newA_rst (n : Nat) (f : Nat → Byte) : (s.newA n f).rst = s.rst := rfl
@[simp] theorem State.newA_pending (n : Nat) (f : Nat → Byte) : (s.newA n f).pending = s.pending := rfl
@[simp] theorem State.newA_rdata (n : Nat) (f : Nat → Byte) : (s.newA n f).rdata = s.rdata := rfl

/-! ## `State.newS` -/

@[simp] theorem State.newS_bufA (n : Nat) (f : Nat → Dword) : (s.newS n f).bufA = s.bufA := rfl
@[simp] theorem State.newS_lenA (n : Nat) (f : Nat → Dword) : (s.newS n f).lenA = s.lenA := rfl
@[simp] theorem State.newS_bufB (n : Nat) (f : Nat → Dword) : (s.newS n f).bufB = s.bufB := rfl
@[simp] theorem State.newS_lenB (n : Nat) (f : Nat → Dword) : (s.newS n f).lenB = s.lenB := rfl
@[simp] theorem State.newS_bufS (n : Nat) (f : Nat → Dword) : (s.newS n f).bufS = s.bufS.fill n f := rfl
@[simp] theorem State.newS_lenS (n : Nat) (f : Nat → Dword) : (s.newS n f).lenS = BitVec.ofNat 16 n := rfl
@[simp] theorem State.newS_flag (n : Nat) (f : Nat → Dword) : (s.newS n f).flag = s.flag := rfl
@[simp] theorem State.newS_res (n : Nat) (f : Nat → Dword) : (s.newS n f).res = s.res := rfl
@[simp] theorem State.newS_fault (n : Nat) (f : Nat → Dword) : (s.newS n f).fault = s.fault := rfl
@[simp] theorem State.newS_fcode (n : Nat) (f : Nat → Dword) : (s.newS n f).fcode = s.fcode := rfl
@[simp] theorem State.newS_finfo0 (n : Nat) (f : Nat → Dword) : (s.newS n f).finfo0 = s.finfo0 := rfl
@[simp] theorem State.newS_finfo1 (n : Nat) (f : Nat → Dword) : (s.newS n f).finfo1 = s.finfo1 := rfl
@[simp] theorem State.newS_cfg (n : Nat) (f : Nat → Dword) : (s.newS n f).cfg = s.cfg := rfl
@[simp] theorem State.newS_rst (n : Nat) (f : Nat → Dword) : (s.newS n f).rst = s.rst := rfl
@[simp] theorem State.newS_pending (n : Nat) (f : Nat → Dword) : (s.newS n f).pending = s.pending := rfl
@[simp] theorem State.newS_rdata (n : Nat) (f : Nat → Dword) : (s.newS n f).rdata = s.rdata := rfl

/-! ## `State.setRes` -/

@[simp] theorem State.setRes_bufA (v : Dword) : (s.setRes v).bufA = s.bufA := rfl
@[simp] theorem State.setRes_lenA (v : Dword) : (s.setRes v).lenA = s.lenA := rfl
@[simp] theorem State.setRes_bufB (v : Dword) : (s.setRes v).bufB = s.bufB := rfl
@[simp] theorem State.setRes_lenB (v : Dword) : (s.setRes v).lenB = s.lenB := rfl
@[simp] theorem State.setRes_bufS (v : Dword) : (s.setRes v).bufS = s.bufS := rfl
@[simp] theorem State.setRes_lenS (v : Dword) : (s.setRes v).lenS = s.lenS := rfl
@[simp] theorem State.setRes_flag (v : Dword) : (s.setRes v).flag = s.flag := rfl
@[simp] theorem State.setRes_res (v : Dword) : (s.setRes v).res = v := rfl
@[simp] theorem State.setRes_fault (v : Dword) : (s.setRes v).fault = s.fault := rfl
@[simp] theorem State.setRes_fcode (v : Dword) : (s.setRes v).fcode = s.fcode := rfl
@[simp] theorem State.setRes_finfo0 (v : Dword) : (s.setRes v).finfo0 = s.finfo0 := rfl
@[simp] theorem State.setRes_finfo1 (v : Dword) : (s.setRes v).finfo1 = s.finfo1 := rfl
@[simp] theorem State.setRes_cfg (v : Dword) : (s.setRes v).cfg = s.cfg := rfl
@[simp] theorem State.setRes_rst (v : Dword) : (s.setRes v).rst = s.rst := rfl
@[simp] theorem State.setRes_pending (v : Dword) : (s.setRes v).pending = s.pending := rfl
@[simp] theorem State.setRes_rdata (v : Dword) : (s.setRes v).rdata = s.rdata := rfl

/-! ## `State.enterFault` -/

@[simp] theorem State.enterFault_bufA (c : FaultCode) (i0 i1 : Word) : (s.enterFault c i0 i1).bufA = s.bufA := rfl
@[simp] theorem State.enterFault_lenA (c : FaultCode) (i0 i1 : Word) : (s.enterFault c i0 i1).lenA = s.lenA := rfl
@[simp] theorem State.enterFault_bufB (c : FaultCode) (i0 i1 : Word) : (s.enterFault c i0 i1).bufB = s.bufB := rfl
@[simp] theorem State.enterFault_lenB (c : FaultCode) (i0 i1 : Word) : (s.enterFault c i0 i1).lenB = s.lenB := rfl
@[simp] theorem State.enterFault_bufS (c : FaultCode) (i0 i1 : Word) : (s.enterFault c i0 i1).bufS = s.bufS := rfl
@[simp] theorem State.enterFault_lenS (c : FaultCode) (i0 i1 : Word) : (s.enterFault c i0 i1).lenS = s.lenS := rfl
@[simp] theorem State.enterFault_flag (c : FaultCode) (i0 i1 : Word) : (s.enterFault c i0 i1).flag = s.flag := rfl
@[simp] theorem State.enterFault_res (c : FaultCode) (i0 i1 : Word) : (s.enterFault c i0 i1).res = s.res := rfl
@[simp] theorem State.enterFault_fault (c : FaultCode) (i0 i1 : Word) : (s.enterFault c i0 i1).fault = true := rfl
@[simp] theorem State.enterFault_fcode (c : FaultCode) (i0 i1 : Word) : (s.enterFault c i0 i1).fcode = c.code := rfl
@[simp] theorem State.enterFault_finfo0 (c : FaultCode) (i0 i1 : Word) : (s.enterFault c i0 i1).finfo0 = i0 := rfl
@[simp] theorem State.enterFault_finfo1 (c : FaultCode) (i0 i1 : Word) : (s.enterFault c i0 i1).finfo1 = i1 := rfl
@[simp] theorem State.enterFault_cfg (c : FaultCode) (i0 i1 : Word) : (s.enterFault c i0 i1).cfg = s.cfg := rfl
@[simp] theorem State.enterFault_rst (c : FaultCode) (i0 i1 : Word) : (s.enterFault c i0 i1).rst = s.rst := rfl
@[simp] theorem State.enterFault_pending (c : FaultCode) (i0 i1 : Word) : (s.enterFault c i0 i1).pending = s.pending := rfl
@[simp] theorem State.enterFault_rdata (c : FaultCode) (i0 i1 : Word) : (s.enterFault c i0 i1).rdata = s.rdata := rfl

/-! ## `State.withPending` -/

@[simp] theorem State.withPending_bufA (es : List HostEvent) : (s.withPending es).bufA = s.bufA := rfl
@[simp] theorem State.withPending_lenA (es : List HostEvent) : (s.withPending es).lenA = s.lenA := rfl
@[simp] theorem State.withPending_bufB (es : List HostEvent) : (s.withPending es).bufB = s.bufB := rfl
@[simp] theorem State.withPending_lenB (es : List HostEvent) : (s.withPending es).lenB = s.lenB := rfl
@[simp] theorem State.withPending_bufS (es : List HostEvent) : (s.withPending es).bufS = s.bufS := rfl
@[simp] theorem State.withPending_lenS (es : List HostEvent) : (s.withPending es).lenS = s.lenS := rfl
@[simp] theorem State.withPending_flag (es : List HostEvent) : (s.withPending es).flag = s.flag := rfl
@[simp] theorem State.withPending_res (es : List HostEvent) : (s.withPending es).res = s.res := rfl
@[simp] theorem State.withPending_fault (es : List HostEvent) : (s.withPending es).fault = s.fault := rfl
@[simp] theorem State.withPending_fcode (es : List HostEvent) : (s.withPending es).fcode = s.fcode := rfl
@[simp] theorem State.withPending_finfo0 (es : List HostEvent) : (s.withPending es).finfo0 = s.finfo0 := rfl
@[simp] theorem State.withPending_finfo1 (es : List HostEvent) : (s.withPending es).finfo1 = s.finfo1 := rfl
@[simp] theorem State.withPending_cfg (es : List HostEvent) : (s.withPending es).cfg = s.cfg := rfl
@[simp] theorem State.withPending_rst (es : List HostEvent) : (s.withPending es).rst = s.rst := rfl
@[simp] theorem State.withPending_pending (es : List HostEvent) : (s.withPending es).pending = es := rfl
@[simp] theorem State.withPending_rdata (es : List HostEvent) : (s.withPending es).rdata = s.rdata := rfl

/-! ## `State.afterReset` -/

@[simp] theorem State.afterReset_bufA : (s.afterReset).bufA = [] := rfl
@[simp] theorem State.afterReset_lenA : (s.afterReset).lenA = 0#16 := rfl
@[simp] theorem State.afterReset_bufB : (s.afterReset).bufB = [] := rfl
@[simp] theorem State.afterReset_lenB : (s.afterReset).lenB = 0#16 := rfl
@[simp] theorem State.afterReset_bufS : (s.afterReset).bufS = [] := rfl
@[simp] theorem State.afterReset_lenS : (s.afterReset).lenS = 0#16 := rfl
@[simp] theorem State.afterReset_flag : (s.afterReset).flag = false := rfl
@[simp] theorem State.afterReset_res : (s.afterReset).res = 0#64 := rfl
@[simp] theorem State.afterReset_fault : (s.afterReset).fault = false := rfl
@[simp] theorem State.afterReset_fcode : (s.afterReset).fcode = 0#4 := rfl
@[simp] theorem State.afterReset_finfo0 : (s.afterReset).finfo0 = 0#32 := rfl
@[simp] theorem State.afterReset_finfo1 : (s.afterReset).finfo1 = 0#32 := rfl
@[simp] theorem State.afterReset_cfg : (s.afterReset).cfg = s.cfg := rfl
@[simp] theorem State.afterReset_rst : (s.afterReset).rst = false := rfl
@[simp] theorem State.afterReset_pending : (s.afterReset).pending = s.pending := rfl
@[simp] theorem State.afterReset_rdata : (s.afterReset).rdata = s.rdata := rfl

end Sys2Proof.Machine
end

