-- ==== Sys2Proof/Laws/Ops.lean ====
section
/-! SUPPORT. What each shared operation can do, said once: completing, faulting, storing in A, locating an
access, and the shapes of effect a command can have. -/

namespace Sys2Proof.Machine

/-! ## Completing and faulting -/

theorem complete_next_iff {b : Bool} {s t : State} : complete b s = .next t ↔ t = { s with flag := b } := by
  simp [complete, eq_comm]

theorem raiseFault_next_iff {c : FaultCode} {i0 i1 : Word} {s t : State} :
    raiseFault c i0 i1 s = .next t ↔ t = s.enterFault c i0 i1 := by
  simp [raiseFault, eq_comm]

theorem commandFault_eq (c : FaultCode) (i : Instr) (s : State) :
    commandFault c i s = .next (s.enterFault c (encode i) 0x00004#32) := rfl

/-- The value A holds after `A[0..LA-1] <- bytesBE(v, LA)` (R9, R180). -/
theorem valBE_storeValueA (s : State) (v : Nat) :
    valBE (s.storeValueA v).bufA s.lengthA = v % 2 ^ s.widthA :=
  valBE_fill_bytesBE s.bufA v s.lengthA

theorem State.valA_lt (s : State) : s.valA < 2 ^ s.widthA := valBE_lt s.bufA s.lengthA

theorem State.valB_lt (s : State) : s.valB < 2 ^ (8 * s.lengthB) := valBE_lt s.bufB s.lengthB

/-- A length of A never exceeds what 16 bits hold. -/
theorem State.lengthA_lt (s : State) : s.lengthA < 65536 := s.lenA.isLt

theorem State.lengthS_lt (s : State) : s.lengthS < 65536 := s.lenS.isLt

/-! ## The effect of a command -/

theorem chunkCount_le (tail : ChunkTail) (W : Nat) {n : Nat} (h : 1 ≤ n) : chunkCount tail W n ≤ W := by
  cases tail
  · show (W + n - 1) / n ≤ W
    rw [Nat.div_le_iff_le_mul_add_pred h]
    have : W ≤ n * W := Nat.le_mul_of_pos_left W h
    omega
  · exact Nat.div_le_self W n

/-- The effects a command can have: it faults, writes FLAG alone, writes RES, writes bytes of A, makes a new A
or a new S, copies A into B, or exchanges A and B. -/
inductive Effect (i : Instr) (s : State) : Host.Outcome State Fault Refusal → Prop where
  | fault (c : FaultCode) (h : c ≠ .lenRange) : Effect i s (.next (s.enterFault c (encode i) 0x00004#32))
  | status (b : Bool) : Effect i s (.next { s with flag := b })
  | result (v : Dword) : Effect i s (.next { s.setRes v with flag := false })
  | bytesA (b : Bool) (f : Nat → Byte) : Effect i s (.next { s.storeA f with flag := b })
  | newA (n : Nat) (f : Nat → Byte) (h : s.lengthS ≤ s.cfg.maxs → n ≤ s.cfg.maxlen) :
      Effect i s (.next { s.newA n f with flag := false })
  | newS (n : Nat) (f : Nat → Dword) (h : n ≤ s.widthA) :
      Effect i s (.next { s.newS n f with flag := false })
  | copyAB : Effect i s
      (.next { s with bufB := s.bufB.fill s.lengthA s.bufA.read, lenB := s.lenA, flag := false })
  | swapAB : Effect i s
      (.next { s with bufA := s.bufB, bufB := s.bufA, lenA := s.lenB, lenB := s.lenA, flag := false })

/-- Every command has one of the effects of `Effect`. -/
theorem exec_effect (i : Instr) (s : State) : Effect i s (exec i s) := by
  cases i with
  | shl n => exact .bytesA _ _
  | shr n => exact .bytesA _ _
  | rev => exact .bytesA _ _
  | not => exact .bytesA _ _
  | beand => exact .bytesA _ _
  | beor =>
    show Effect _ s (execBeor s)
    unfold execBeor
    split
    · exact .fault .operandLength (by decide)
    · exact .bytesA _ _
  | bexor => exact .bytesA _ _
  | leand => exact .bytesA _ _
  | leor => exact .bytesA _ _
  | lexor => exact .bytesA _ _
  | allz => exact .status _
  | allo => exact .status _
  | lzc => exact .result _
  | tzc => exact .result _
  | bits => exact .newS _ _ (le_refl _)
  | bitget k =>
    show Effect _ s (execBitget k s)
    unfold execBitget
    split
    · exact .fault .bitIndex (by decide)
    · exact .status _
  | chunks n ct =>
    show Effect _ s (execChunks n ct s)
    unfold execChunks
    split
    · exact .fault .chunkWidth (by decide)
    · rename_i h
      refine .newS _ _ (chunkCount_le _ _ ?_)
      simp [badChunkWidth] at h
      omega
  | frombits =>
    refine .newA _ _ fun h => ?_
    unfold Params.maxs at h
    unfold bytesForBits
    omega
  | fromchunks n =>
    show Effect _ s (execFromchunks n s)
    unfold execFromchunks
    split
    · exact .fault .chunkWidth (by decide)
    · split
      · exact .fault .capacity (by decide)
      · exact .newA _ _ fun _ => by omega
  | cmp => exact .result _
  | add => exact .bytesA _ _
  | sub => exact .bytesA _ _
  | mul => exact .bytesA _ _
  | div =>
    show Effect _ s (execDiv s)
    unfold execDiv
    split
    · exact .status _
    · exact .bytesA _ _
  | rem =>
    show Effect _ s (execRem s)
    unfold execRem
    split
    · exact .status _
    · exact .bytesA _ _
  | movab => exact .copyAB
  | swap => exact .swapAB

/-! ## Accesses -/

/-- An access reaches a slot exactly when RST is released, the host is the one host, the address is in the
window, the width is 32 bits, the offset is a multiple of 4 and the map has a slot there. -/
theorem locate_next_iff {s : State} {master addr size : Nat} {r : Slot} :
    locate s master addr size = .next r ↔
      s.rst = false ∧ master = 0 ∧ s.cfg.base ≤ addr ∧ addr < s.cfg.base + windowBytes ∧ size = 4 ∧
        (addr - s.cfg.base) % 4 = 0 ∧ slotAt s.cfg (addr - s.cfg.base) = some r := by
  unfold locate
  split_ifs with h1 h2 h3 h4 h5
  · simp [h1]
  · simp [h2]
  · simp only [false_iff]
    omega
  · simp [h4]
  · simp [h5]
  · cases hs : slotAt s.cfg (addr - s.cfg.base) with
    | none => simp
    | some r' =>
      simp only [Host.Outcome.next.injEq, Option.some.injEq]
      constructor
      · rintro rfl
        exact ⟨by simpa using h1, by omega, by omega, by omega, by omega, by omega, rfl⟩
      · exact fun h => h.2.2.2.2.2.2

theorem atSlot_next_iff {found : Host.Outcome Slot Fault Refusal}
    {k : Slot → Host.Outcome State Fault Refusal} {t : State} :
    atSlot found k = .next t ↔ ∃ r, found = .next r ∧ k r = .next t := by
  cases found <;> simp [atSlot]

/-- What performing one event can do: a read at a slot, a write at a slot, or a change of RST. -/
theorem perform_next_cases {e : HostEvent} {s t : State} (h : perform e s = .next t) :
    (∃ r, t = { s with rdata := some (readSlot s r) }) ∨
      (∃ r w, s.rst = false ∧ hostWrite s r w = .next t ∧ ∃ off, slotAt s.cfg off = some r) ∨
      (∃ level, e = .rst level ∧ t = s.driveRst level) := by
  cases e with
  | read m a z =>
    obtain ⟨r, _, hk⟩ := atSlot_next_iff.mp h
    simp only [hostRead, Host.Outcome.next.injEq] at hk
    exact .inl ⟨r, hk.symm⟩
  | write m a z w =>
    obtain ⟨r, hl, hk⟩ := atSlot_next_iff.mp h
    have hl := locate_next_iff.mp hl
    exact .inr (.inl ⟨r, w, hl.1, hk, _, hl.2.2.2.2.2.2⟩)
  | rst level =>
    simp only [perform, Host.Outcome.next.injEq] at h
    exact .inr (.inr ⟨level, rfl, h.symm⟩)

/-- What a step can do: nothing when idle, or the oldest pending event. -/
theorem step_eq (s : State) :
    (s.pending = [] ∧ step s = .next s) ∨
      (∃ e rest, s.pending = e :: rest ∧ step s = perform e (s.withPending rest)) := by
  unfold step takeEvent
  cases h : s.pending with
  | nil => exact .inl ⟨rfl, rfl⟩
  | cons e rest => exact .inr ⟨e, rest, rfl, rfl⟩

theorem step_of_pending {s : State} {e : HostEvent} {rest : List HostEvent} (h : s.pending = e :: rest) :
    step s = perform e (s.withPending rest) := by
  unfold step takeEvent
  rw [h]

/-- A slot the map gives is one the parameters allow. -/
theorem slotAt_exists {p : Params} {off : Nat} {r : Slot} (h : slotAt p off = some r) : r.exists p = true := by
  unfold slotAt at h
  split_ifs at h
  · unfold registerAt at h
    split at h <;> first | (cases h; done) | (simp only [Option.some.injEq] at h; subst h; rfl)
  all_goals
    unfold Slot.mapped at h
    split at h
    · simp only [Option.some.injEq] at h
      subst h
      assumption
    · cases h

/-- What a write of a slot can do in the normal state. -/
theorem writeSlot_cases {s t : State} {r : Slot} {w : Word} (h : writeSlot s r w = .next t) :
    (r = .cmd ∧ executeWord w s = .next t) ∨ t = s ∨
      (∃ c, (c = 0x00014#32 ∨ c = 0x00018#32 ∨ c = 0x0001C#32) ∧ t = s.enterFault .lenRange w c) ∨
      (w.toNat ≤ s.cfg.maxlen ∧ t = { s with lenA := w.truncate 16 }) ∨
      (w.toNat ≤ s.cfg.maxlen ∧ t = { s with lenB := w.truncate 16 }) ∨
      (w.toNat ≤ s.cfg.maxs ∧ t = { s with lenS := w.truncate 16 }) ∨
      (∃ i v, r = .byteA i ∧ t = { s with bufA := s.bufA.write i v }) ∨
      (∃ i v, r = .byteB i ∧ t = { s with bufB := s.bufB.write i v }) ∨
      (∃ j v, (r = .elemLo j ∨ r = .elemHi j) ∧ t = { s with bufS := s.bufS.write j v }) := by
  cases r with
  | cmd => exact .inl ⟨rfl, h⟩
  | lenA =>
    simp only [writeSlot, writeLength, raiseFault] at h
    split at h <;> simp only [Host.Outcome.next.injEq] at h <;> subst h
    · exact .inr (.inr (.inr (.inl ⟨‹_›, rfl⟩)))
    · exact .inr (.inr (.inl ⟨_, .inl rfl, rfl⟩))
  | lenB =>
    simp only [writeSlot, writeLength, raiseFault] at h
    split at h <;> simp only [Host.Outcome.next.injEq] at h <;> subst h
    · exact .inr (.inr (.inr (.inr (.inl ⟨‹_›, rfl⟩))))
    · exact .inr (.inr (.inl ⟨_, .inr (.inl rfl), rfl⟩))
  | lenS =>
    simp only [writeSlot, writeLength, raiseFault] at h
    split at h <;> simp only [Host.Outcome.next.injEq] at h <;> subst h
    · exact .inr (.inr (.inr (.inr (.inr (.inl ⟨‹_›, rfl⟩)))))
    · exact .inr (.inr (.inl ⟨_, .inr (.inr rfl), rfl⟩))
  | byteA i =>
    simp only [writeSlot, Host.Outcome.next.injEq] at h
    exact .inr (.inr (.inr (.inr (.inr (.inr (.inl ⟨i, _, rfl, h.symm⟩))))))
  | byteB i =>
    simp only [writeSlot, Host.Outcome.next.injEq] at h
    exact .inr (.inr (.inr (.inr (.inr (.inr (.inr (.inl ⟨i, _, rfl, h.symm⟩)))))))
  | elemLo j =>
    simp only [writeSlot, Host.Outcome.next.injEq] at h
    exact .inr (.inr (.inr (.inr (.inr (.inr (.inr (.inr ⟨j, _, .inl rfl, h.symm⟩)))))))
  | elemHi j =>
    simp only [writeSlot, Host.Outcome.next.injEq] at h
    exact .inr (.inr (.inr (.inr (.inr (.inr (.inr (.inr ⟨j, _, .inr rfl, h.symm⟩)))))))
  | id | status | resLo | resHi | finfo0 | finfo1 | cap =>
    simp only [writeSlot, Host.Outcome.next.injEq] at h
    exact .inr (.inl h.symm)

end Sys2Proof.Machine
end

