-- ==== Sys2Proof/Laws/PerInstr.lean ====
section
/-! SUPPORT. The family `OpcodeByte`: the low byte of every command word is the opcode of its mnemonic. -/

namespace Sys2Proof.Laws.OpcodeByte

/-- The field `OP` of the encoded command is the opcode of its row (R81, R86). -/
def Statement (i : Instr) : Prop := opField (encode i) = i.mnemonic.op

theorem shl (n : Nat) : Statement (.shl n) := opField_fieldsWord (Mnemonic.op_lt .shl)
theorem shr (n : Nat) : Statement (.shr n) := opField_fieldsWord (Mnemonic.op_lt .shr)
theorem rev : Statement .rev := opField_fieldsWord (Mnemonic.op_lt .rev)
theorem not : Statement .not := opField_fieldsWord (Mnemonic.op_lt .not)
theorem beand : Statement .beand := opField_fieldsWord (Mnemonic.op_lt .beand)
theorem beor : Statement .beor := opField_fieldsWord (Mnemonic.op_lt .beor)
theorem bexor : Statement .bexor := opField_fieldsWord (Mnemonic.op_lt .bexor)
theorem leand : Statement .leand := opField_fieldsWord (Mnemonic.op_lt .leand)
theorem leor : Statement .leor := opField_fieldsWord (Mnemonic.op_lt .leor)
theorem lexor : Statement .lexor := opField_fieldsWord (Mnemonic.op_lt .lexor)
theorem allz : Statement .allz := opField_fieldsWord (Mnemonic.op_lt .allz)
theorem allo : Statement .allo := opField_fieldsWord (Mnemonic.op_lt .allo)
theorem lzc : Statement .lzc := opField_fieldsWord (Mnemonic.op_lt .lzc)
theorem tzc : Statement .tzc := opField_fieldsWord (Mnemonic.op_lt .tzc)
theorem bits : Statement .bits := opField_fieldsWord (Mnemonic.op_lt .bits)
theorem bitget (k : Nat) : Statement (.bitget k) := opField_fieldsWord (Mnemonic.op_lt .bitget)
theorem chunks (n : Nat) (ct : ChunkType) : Statement (.chunks n ct) := opField_fieldsWord (Mnemonic.op_lt .chunks)
theorem frombits : Statement .frombits := opField_fieldsWord (Mnemonic.op_lt .frombits)
theorem fromchunks (n : Nat) : Statement (.fromchunks n) := opField_fieldsWord (Mnemonic.op_lt .fromchunks)
theorem cmp : Statement .cmp := opField_fieldsWord (Mnemonic.op_lt .cmp)
theorem add : Statement .add := opField_fieldsWord (Mnemonic.op_lt .add)
theorem sub : Statement .sub := opField_fieldsWord (Mnemonic.op_lt .sub)
theorem mul : Statement .mul := opField_fieldsWord (Mnemonic.op_lt .mul)
theorem div : Statement .div := opField_fieldsWord (Mnemonic.op_lt .div)
theorem rem : Statement .rem := opField_fieldsWord (Mnemonic.op_lt .rem)
theorem movab : Statement .movab := opField_fieldsWord (Mnemonic.op_lt .movab)
theorem swap : Statement .swap := opField_fieldsWord (Mnemonic.op_lt .swap)

end Sys2Proof.Laws.OpcodeByte
end

