-- ==== Sys2Proof/Laws/Window.lean ====
section
/-! SUPPORT. Where the slots of the window map stand: the offset of an existing slot is in the window, a multiple
of 4, and mapped to that slot. -/

namespace Sys2Proof.Machine

theorem Params.legal_iff (p : Params) : p.legal = true ↔ 1 ≤ p.maxlen ∧ p.maxlen ≤ 4096 := by
  simp [Params.legal]

/-- An existing slot's offset lies in the window and is a multiple of 4 (R50, R56). -/
theorem Slot.offset_lt {p : Params} {r : Slot} (hp : p.legal = true) (hr : r.exists p = true) :
    r.offset < windowBytes ∧ r.offset % 4 = 0 := by
  have hl := (Params.legal_iff p).mp hp
  have hw : windowBytes = 0x80000 := rfl
  rw [hw]
  cases r with
  | byteA i =>
    have hi : i < p.maxlen := of_decide_eq_true hr
    show 0x10000 + 4 * i < 0x80000 ∧ (0x10000 + 4 * i) % 4 = 0
    omega
  | byteB i =>
    have hi : i < p.maxlen := of_decide_eq_true hr
    show 0x20000 + 4 * i < 0x80000 ∧ (0x20000 + 4 * i) % 4 = 0
    omega
  | elemLo j =>
    have hj : j < 8 * p.maxlen := of_decide_eq_true hr
    show 0x40000 + 8 * j < 0x80000 ∧ (0x40000 + 8 * j) % 4 = 0
    omega
  | elemHi j =>
    have hj : j < 8 * p.maxlen := of_decide_eq_true hr
    show 0x40004 + 8 * j < 0x80000 ∧ (0x40004 + 8 * j) % 4 = 0
    omega
  | id | cmd | status | resLo | resHi | lenA | lenB | lenS | finfo0 | finfo1 | cap => decide

theorem Slot.mapped_of_exists {p : Params} {r : Slot} (h : r.exists p = true) : Slot.mapped p r = some r := by
  unfold Slot.mapped
  rw [if_pos h]

/-- The map gives an existing slot at its offset (R51). -/
theorem slotAt_offset {p : Params} {r : Slot} (hp : p.legal = true) (hr : r.exists p = true) :
    slotAt p r.offset = some r := by
  have hl := (Params.legal_iff p).mp hp
  cases r with
  | byteA i =>
    have hi : i < p.maxlen := of_decide_eq_true hr
    show slotAt p (0x10000 + 4 * i) = _
    unfold slotAt
    rw [if_neg (by omega), if_pos (by omega), Nat.add_sub_cancel_left,
      Nat.mul_div_cancel_left _ (by omega), Slot.mapped_of_exists hr]
  | byteB i =>
    have hi : i < p.maxlen := of_decide_eq_true hr
    show slotAt p (0x20000 + 4 * i) = _
    unfold slotAt
    rw [if_neg (by omega), if_neg (by omega), if_pos (by omega), Nat.add_sub_cancel_left,
      Nat.mul_div_cancel_left _ (by omega), Slot.mapped_of_exists hr]
  | elemLo j =>
    have hj : j < 8 * p.maxlen := of_decide_eq_true hr
    show slotAt p (0x40000 + 8 * j) = _
    unfold slotAt
    rw [if_neg (by omega), if_neg (by omega), if_neg (by omega), if_pos (by omega),
      Nat.add_sub_cancel_left, Nat.mul_div_cancel_left _ (by omega), Slot.mapped_of_exists hr]
  | elemHi j =>
    have hj : j < 8 * p.maxlen := of_decide_eq_true hr
    show slotAt p (0x40004 + 8 * j) = _
    unfold slotAt
    have hq : (0x40004 + 8 * j - 0x40000) / 8 = j := by omega
    rw [if_neg (by omega), if_neg (by omega), if_neg (by omega), if_neg (by omega), hq,
      Slot.mapped_of_exists hr]
  | id | cmd | status | resLo | resHi | lenA | lenB | lenS | finfo0 | finfo1 | cap => rfl

/-- An access of the one host at an existing slot's address reaches the slot. -/
theorem locate_slot {s : State} {r : Slot} (hr : s.rst = false) (hp : s.cfg.legal = true)
    (he : r.exists s.cfg = true) : locate s 0 (s.cfg.base + r.offset) 4 = .next r := by
  have ho := Slot.offset_lt hp he
  rw [locate_next_iff, Nat.add_sub_cancel_left]
  exact ⟨hr, rfl, by omega, by omega, rfl, ho.2, slotAt_offset hp he⟩

/-- The host's write of a mapped word is the write of that slot, the event being consumed. -/
theorem step_write {s : State} {r : Slot} {w : Word} {rest : List HostEvent} (hr : s.rst = false)
    (hp : s.cfg.legal = true) (he : r.exists s.cfg = true)
    (hq : s.pending = .write 0 (s.cfg.base + r.offset) 4 w :: rest) :
    step s = hostWrite (s.withPending rest) r w := by
  rw [step_of_pending hq]
  show atSlot (locate (s.withPending rest) 0 (s.cfg.base + r.offset) 4) _ = _
  rw [show locate (s.withPending rest) 0 (s.cfg.base + r.offset) 4 = .next r from
    locate_slot (s := s.withPending rest) hr hp he]
  rfl

end Sys2Proof.Machine
end

