-- ==== Sys2Proof/Tests/Slice0.lean ====
section
/-! SUPPORT. The model's own tests: forms, decoding of words written out from spec/30_encoding.md, one or two
vectors of spec/95_test_vectors.md per command, single host accesses, and for every statement that has
hypotheses a state and operands that meet them. -/

namespace Sys2Proof.Tests

open Sys2Proof Sys2Proof.Machine

/-! ## Well-formedness: the one check, on each command that has an immediate -/

theorem test_wf_refuses_shl_65536 : (Instr.shl 65536).wf = false := by decide
theorem test_wf_refuses_shr_65536 : (Instr.shr 65536).wf = false := by decide
theorem test_wf_refuses_bitget_65536 : (Instr.bitget 65536).wf = false := by decide
theorem test_wf_refuses_fromchunks_65536 : (Instr.fromchunks 65536).wf = false := by decide
theorem test_wf_refuses_chunks_65536 : (Instr.chunks 65536 .u8).wf = false := by decide
theorem test_wf_accepts_shl_65535 : (Instr.shl 65535).wf = true := by decide

/-! ## Decoding: the word of every command, written bit by bit from R82, R83, R84 and R86 -/

theorem test_decode_shl : decode 0b0000000000000100_00000000_00010000#32 = .ok (.shl 4) := by decide
theorem test_decode_shr : decode 0b0000000000001100_00000000_00010001#32 = .ok (.shr 12) := by decide
theorem test_decode_rev : decode 0b0000000000000000_00000000_00010010#32 = .ok .rev := by decide
theorem test_decode_not : decode 0b0000000000000000_00000000_00010011#32 = .ok .not := by decide
theorem test_decode_beand : decode 0b0000000000000000_00000000_00010100#32 = .ok .beand := by decide
theorem test_decode_beor : decode 0b0000000000000000_00000000_00010101#32 = .ok .beor := by decide
theorem test_decode_bexor : decode 0b0000000000000000_00000000_00010110#32 = .ok .bexor := by decide
theorem test_decode_leand : decode 0b0000000000000000_00000000_00010111#32 = .ok .leand := by decide
theorem test_decode_leor : decode 0b0000000000000000_00000000_00011000#32 = .ok .leor := by decide
theorem test_decode_lexor : decode 0b0000000000000000_00000000_00011001#32 = .ok .lexor := by decide
theorem test_decode_allz : decode 0b0000000000000000_00000000_00011010#32 = .ok .allz := by decide
theorem test_decode_allo : decode 0b0000000000000000_00000000_00011011#32 = .ok .allo := by decide
theorem test_decode_lzc : decode 0b0000000000000000_00000000_00011100#32 = .ok .lzc := by decide
theorem test_decode_tzc : decode 0b0000000000000000_00000000_00011101#32 = .ok .tzc := by decide
theorem test_decode_bits : decode 0b0000000000000000_00000000_00100000#32 = .ok .bits := by decide
theorem test_decode_bitget : decode 0b0000000000010001_00000000_00100001#32 = .ok (.bitget 17) := by decide
theorem test_decode_chunks_u8 : decode 0b0000000000000110_00000000_00100010#32 = .ok (.chunks 6 .u8) := by decide
theorem test_decode_chunks_u16 : decode 0b0000000000001011_00000001_00100010#32 = .ok (.chunks 11 .u16) := by decide
theorem test_decode_chunks_u32 : decode 0b0000000000100000_00000010_00100010#32 = .ok (.chunks 32 .u32) := by decide
theorem test_decode_chunks_u64 : decode 0b0000000000100000_00000011_00100010#32 = .ok (.chunks 32 .u64) := by decide
theorem test_decode_frombits : decode 0b0000000000000000_00000000_00100011#32 = .ok .frombits := by decide
theorem test_decode_fromchunks : decode 0b0000000000000110_00000000_00100100#32 = .ok (.fromchunks 6) := by decide
theorem test_decode_cmp : decode 0b0000000000000000_00000000_00110000#32 = .ok .cmp := by decide
theorem test_decode_add : decode 0b0000000000000000_00000000_00110001#32 = .ok .add := by decide
theorem test_decode_sub : decode 0b0000000000000000_00000000_00110010#32 = .ok .sub := by decide
theorem test_decode_mul : decode 0b0000000000000000_00000000_00110011#32 = .ok .mul := by decide
theorem test_decode_div : decode 0b0000000000000000_00000000_00110100#32 = .ok .div := by decide
theorem test_decode_rem : decode 0b0000000000000000_00000000_00110101#32 = .ok .rem := by decide
theorem test_decode_movab : decode 0b0000000000000000_00000000_01000000#32 = .ok .movab := by decide
theorem test_decode_swap : decode 0b0000000000000000_00000000_01000001#32 = .ok .swap := by decide

/-! The illegal words of spec/95_test_vectors.md 2.1. -/

theorem test_decode_refuses_zero : decode 0x00000000#32 = .error .unassignedOp := by decide
theorem test_decode_refuses_op_ff : decode 0x000000FF#32 = .error .unassignedOp := by decide
theorem test_decode_refuses_op_42 : decode 0x00000042#32 = .error .unassignedOp := by decide
theorem test_decode_refuses_fi_sub : decode 0x00000110#32 = .error .nonzeroSub := by decide
theorem test_decode_refuses_f0_imm : decode 0x00010012#32 = .error .nonzeroAboveOp := by decide
theorem test_decode_refuses_f0_add_imm : decode 0x01000031#32 = .error .nonzeroAboveOp := by decide
theorem test_decode_refuses_fc_sub : decode 0x00060422#32 = .error .nonzeroSubAboveCT := by decide

theorem test_decodeTableWord_chunks : decodeTableWord 32 0x000B0122 = some (.chunks 11 .u16) := by decide
theorem test_encode_chunks : encode (.chunks 32 .u64) = 0x00200322#32 := by decide

/-! The assembly examples of R90 and an operand out of range. -/

theorem test_assemble_shl : assemble ['s', 'h', 'l', ' ', '4'] = some 0x00040010#32 := by decide
theorem test_assemble_chunks :
    assemble ['c', 'h', 'u', 'n', 'k', 's', ' ', '1', '1', ',', ' ', 'u', '1', '6'] = some 0x000B0122#32 := by
  decide
theorem test_assemble_hex : assemble ['S', 'H', 'R', ' ', '0', 'x', 'C'] = some 0x000C0011#32 := by decide
theorem test_assemble_refuses_65536 : assemble ['s', 'h', 'l', ' ', '6', '5', '5', '3', '6'] = none := by decide

/-! ## Commands: the vectors of spec/95_test_vectors.md -/

/-- A reset engine with A, B and S loaded. -/
def loaded (a b : List Byte) (e : List Dword) : State :=
  { State.reset with
    bufA := Memory.fill [] a.length (fun i => a.getD i 0#8), lenA := BitVec.ofNat 16 a.length
    bufB := Memory.fill [] b.length (fun i => b.getD i 0#8), lenB := BitVec.ofNat 16 b.length
    bufS := Memory.fill [] e.length (fun j => e.getD j 0#64), lenS := BitVec.ofNat 16 e.length }

/-- A, FLAG and FAULT after a command. -/
def afterA (o : Host.Outcome State Fault Refusal) : Option (List Byte × Bool × Bool) :=
  match o with
  | .next t => some ((List.range t.lengthA).map (fun i => t.bufA.read i), t.flag, t.fault)
  | _ => none

/-- S, FLAG and FAULT after a command. -/
def afterS (o : Host.Outcome State Fault Refusal) : Option (List Dword × Bool × Bool) :=
  match o with
  | .next t => some ((List.range t.lengthS).map (fun j => t.bufS.read j), t.flag, t.fault)
  | _ => none

/-- RES and FLAG after a command. -/
def afterRes (o : Host.Outcome State Fault Refusal) : Option (Dword × Bool) :=
  match o with
  | .next t => some (t.res, t.flag)
  | _ => none

/-- FAULT, FCODE, FINFO0, FINFO1 and STATUS after a step. -/
def afterFault (o : Host.Outcome State Fault Refusal) : Option (Bool × BitVec 4 × Word × Word × Word) :=
  match o with
  | .next t => some (t.fault, t.fcode, t.finfo0, t.finfo1, statusWord t)
  | _ => none

theorem test_shl_12 : afterA (exec (.shl 12) (loaded [0x12#8, 0x34#8] [] [])) =
    some ([0x40#8, 0x00#8], true, false) := by decide
theorem test_shl_width_of_zero : afterA (exec (.shl 16) (loaded [0x00#8, 0x00#8] [] [])) =
    some ([0x00#8, 0x00#8], true, false) := by decide
theorem test_shr_4_no_loss : afterA (exec (.shr 4) (loaded [0x12#8, 0x30#8] [] [])) =
    some ([0x01#8, 0x23#8], false, false) := by decide
theorem test_shr_empty : afterA (exec (.shr 0) (loaded [] [] [])) =
    some ([], true, false) := by decide
theorem test_rev : afterA (exec (.rev) (loaded [0x12#8, 0x34#8] [] [])) =
    some ([0x2C#8, 0x48#8], false, false) := by decide
theorem test_not : afterA (exec (.not) (loaded [0x0F#8, 0xA5#8] [] [])) =
    some ([0xF0#8, 0x5A#8], false, false) := by decide
theorem test_beand_short : afterA (exec (.beand) (loaded [0xFF#8, 0xF0#8] [0x3C#8] [])) =
    some ([0x00#8, 0x30#8], false, false) := by decide
theorem test_beor_long : afterA (exec (.beor) (loaded [0x01#8, 0x02#8] [0x00#8, 0x80#8, 0x40#8] [])) =
    some ([0x81#8, 0x42#8], false, false) := by decide
theorem test_beor_short : afterFault (exec (.beor) (loaded [0xFF#8, 0xF0#8] [0x3C#8] [])) =
    some (true, 4#4, 0x00000015#32, 0x00004#32, 0x42#32) := by decide
theorem test_bexor_short : afterA (exec (.bexor) (loaded [0x12#8, 0x34#8] [0xFF#8] [])) =
    some ([0x12#8, 0xCB#8], false, false) := by decide
theorem test_leand_short : afterA (exec (.leand) (loaded [0xFF#8, 0xF0#8] [0x3C#8] [])) =
    some ([0x3C#8, 0x00#8], false, false) := by decide
theorem test_leor_short : afterA (exec (.leor) (loaded [0x01#8, 0x02#8] [0x40#8] [])) =
    some ([0x41#8, 0x02#8], false, false) := by decide
theorem test_lexor_long : afterA (exec (.lexor) (loaded [0x01#8, 0x02#8] [0x00#8, 0x80#8, 0x40#8] [])) =
    some ([0x01#8, 0x82#8], false, false) := by decide
theorem test_allz : afterA (exec (.allz) (loaded [0x00#8, 0x01#8] [] [])) =
    some ([0x00#8, 0x01#8], false, false) := by decide
theorem test_allo_empty : afterA (exec (.allo) (loaded [] [] [])) =
    some ([], true, false) := by decide
theorem test_lzc : afterRes (exec (.lzc) (loaded [0x00#8, 0x10#8, 0x00#8] [] [])) = some (0xB#64, false) := by
  decide
theorem test_tzc_zero : afterRes (exec (.tzc) (loaded [0x00#8, 0x00#8] [] [])) = some (0x10#64, false) := by
  decide
theorem test_bits : afterS (exec (.bits) (loaded [0xA5#8] [] [])) = some ([1#64, 0#64, 1#64, 0#64, 0#64, 1#64, 0#64, 1#64], false, false) := by
  decide
theorem test_bitget_4 : afterA (exec (.bitget 4) (loaded [0x0F#8] [] [])) =
    some ([0x0F#8], true, false) := by decide
theorem test_bitget_8 : afterFault (exec (.bitget 8) (loaded [0x0F#8] [] [])) =
    some (true, 3#4, 0x00080021#32, 0x00004#32, 0x32#32) := by decide
theorem test_chunks_pad : afterS (exec (.chunks 11 .u16) (loaded [0x12#8, 0x34#8, 0x56#8] [] [])) = some ([145#64, 1301#64, 1024#64], false, false) := by
  decide
theorem test_chunks_drop :
    afterS (exec (.chunks 11 .u16) { loaded [0x12#8, 0x34#8, 0x56#8] [] [] with cfg := { maxlen := 64, tail := .drop, base := 0 } }) =
    some ([145#64, 1301#64], false, false) := by decide
theorem test_chunks_17_u16 : afterFault (exec (.chunks 17 .u16) (loaded [0x12#8] [] [])) =
    some (true, 2#4, 0x00110122#32, 0x00004#32, 0x22#32) := by decide
theorem test_frombits : afterA (exec (.frombits) (loaded [] [] [3#64, 2#64, 1#64, 0#64, 0#64, 0#64, 0#64, 0#64, 1#64])) =
    some ([0xA0#8, 0x80#8], false, false) := by decide
theorem test_fromchunks_3 : afterA (exec (.fromchunks 3) (loaded [] [] [5#64, 5#64, 5#64])) =
    some ([0xB6#8, 0x80#8], false, false) := by decide
theorem test_fromchunks_capacity : afterFault (exec (.fromchunks 32) (loaded [] [] [1#64, 1#64, 1#64, 1#64, 1#64, 1#64, 1#64, 1#64, 1#64, 1#64, 1#64, 1#64, 1#64, 1#64, 1#64, 1#64, 1#64])) =
    some (true, 5#4, 0x00200024#32, 0x00004#32, 0x52#32) := by decide
theorem test_fromchunks_width_first : afterFault (exec (.fromchunks 33) (loaded [] [] [1#64, 1#64, 1#64, 1#64, 1#64, 1#64, 1#64, 1#64, 1#64, 1#64, 1#64, 1#64, 1#64, 1#64, 1#64, 1#64, 1#64])) =
    some (true, 2#4, 0x00210024#32, 0x00004#32, 0x22#32) := by decide
theorem test_cmp_less : afterRes (exec (.cmp) (loaded [] [0x01#8] [])) = some (0xFFFFFFFFFFFFFFFF#64, false) := by
  decide
theorem test_cmp_equal_padded : afterRes (exec (.cmp) (loaded [0xFF#8] [0x00#8, 0x00#8, 0xFF#8] [])) = some (0x0#64, false) := by
  decide
theorem test_add_carry_through : afterA (exec (.add) (loaded [0xFF#8, 0xFF#8, 0xFF#8] [0x01#8] [])) =
    some ([0x00#8, 0x00#8, 0x00#8], true, false) := by decide
theorem test_add_longer_b : afterA (exec (.add) (loaded [0x01#8] [0x01#8, 0x00#8] [])) =
    some ([0x01#8], true, false) := by decide
theorem test_sub_borrow_through : afterA (exec (.sub) (loaded [0x80#8, 0x00#8, 0x00#8] [0x01#8] [])) =
    some ([0x7F#8, 0xFF#8, 0xFF#8], false, false) := by decide
theorem test_sub_longer_b : afterA (exec (.sub) (loaded [0x05#8] [0x01#8, 0x03#8] [])) =
    some ([0x02#8], true, false) := by decide
theorem test_mul : afterA (exec (.mul) (loaded [0xFF#8, 0xFF#8] [0xFF#8, 0xFF#8] [])) =
    some ([0x00#8, 0x01#8], true, false) := by decide
theorem test_mul_zero_by_wide : afterA (exec (.mul) (loaded [0x00#8] [0x01#8, 0x00#8] [])) =
    some ([0x00#8], true, false) := by decide
theorem test_div : afterA (exec (.div) (loaded [0x30#8, 0x00#8] [0x0C#8] [])) =
    some ([0x04#8, 0x00#8], false, false) := by decide
theorem test_div_by_zero : afterA (exec (.div) (loaded [0x12#8, 0x34#8] [0x00#8] [])) =
    some ([0x12#8, 0x34#8], true, false) := by decide
theorem test_rem_common_factor : afterA (exec (.rem) (loaded [0x0C#8] [0x08#8] [])) =
    some ([0x04#8], false, false) := by decide
theorem test_rem_smaller : afterA (exec (.rem) (loaded [0x00#8, 0x05#8] [0x00#8, 0x07#8] [])) =
    some ([0x00#8, 0x05#8], false, false) := by decide
theorem test_movab : (match exec .movab (loaded [0x12#8, 0x34#8] [0xFF#8] []) with
    | .next t => some (t.bufB.read 0, t.bufB.read 1, t.lenB)
    | _ => none) = some (0x12#8, 0x34#8, 2#16) := by decide
theorem test_movab_empty_keeps_bytes : (match exec .movab (loaded [] [0xFF#8] []) with
    | .next t => some (t.bufB.read 0, t.lenB)
    | _ => none) = some (0xFF#8, 0#16) := by decide
theorem test_swap : (match exec .swap (loaded [0x01#8] [0x02#8, 0x03#8] []) with
    | .next t => some (t.bufA.read 0, t.bufA.read 1, t.lenA, t.bufB.read 0, t.lenB)
    | _ => none) = some (0x02#8, 0x03#8, 2#16, 0x01#8, 1#16) := by decide

/-! ## Host accesses: spec/95_test_vectors.md 2.11 -/

/-- One host write, or read, of a window offset in a state. -/
def hostWrites (off : Nat) (v : Word) (s : State) : Host.Outcome State Fault Refusal :=
  step (s.withPending [memWrite s.cfg off v])
def hostReads (off : Nat) (s : State) : Host.Outcome State Fault Refusal :=
  step (s.withPending [memRead s.cfg off])

/-- The word a step read. -/
def wordRead (o : Host.Outcome State Fault Refusal) : Option Word :=
  match o with
  | .next t => t.rdata
  | _ => none

theorem test_read_id : wordRead (hostReads 0x00000 State.reset) = some 0x58420107#32 := by decide
theorem test_read_cap : wordRead (hostReads 0x00028 State.reset) = some 0x00000040#32 := by decide
theorem test_len_a_65_faults : afterFault (hostWrites 0x00014 65#32 State.reset) =
    some (true, 6#4, 0x00000041#32, 0x00014#32, 0x62#32) := by decide
theorem test_len_b_compares_whole_word : afterFault (hostWrites 0x00018 0x00010000#32 State.reset) =
    some (true, 6#4, 0x00010000#32, 0x00018#32, 0x62#32) := by decide
theorem test_illegal_word_faults : afterFault (hostWrites 0x00004 0x00000000#32 State.reset) =
    some (true, 1#4, 0#32, 0x00004#32, 0x12#32) := by decide
theorem test_write_byte_ignores_high_bits :
    (match hostWrites 0x1000C 0x123456AB#32 State.reset with
      | .next t => some (t.bufA.read 3)
      | _ => none) = some 0xAB#8 := by decide
theorem test_write_element_high :
    (match hostWrites 0x40004 0x01234567#32 (loaded [] [] [0x89ABCDEF#64]) with
      | .next t => some (t.bufS.read 0)
      | _ => none) = some 0x0123456789ABCDEF#64 := by decide

/-- The name of a stop. -/
def stopOf (o : Host.Outcome State Fault Refusal) : Option (Fault ⊕ Refusal) :=
  match o with
  | .next _ => none
  | .fault f => some (.inl f)
  | .refused f => some (.inr f)

theorem test_misaligned_refused : stopOf (hostReads 0x00002 State.reset) = some (.inr .misaligned) := by
  decide
theorem test_reserved_refused : stopOf (hostReads 0x0002C State.reset) = some (.inr .unmappedOffset) := by
  decide
theorem test_past_capacity_refused : stopOf (hostReads 0x10100 State.reset) = some (.inr .unmappedOffset) := by
  decide
theorem test_halfword_refused :
    stopOf (step (State.reset.withPending [.read 0 0x00000 2])) = some (.inr .badWidth) := by decide

/-- A faulted engine, as after the illegal word 0. -/
def faulted : State := State.reset.enterFault .illegalCmd 0#32 0x00004#32

theorem test_faulted_ignores_command : (match hostWrites 0x00004 0x00000013#32 faulted with
    | .next t => some (decide (t = faulted))
    | _ => none) = some true := by decide
theorem test_fetch_word_runs : (match step (State.reset.withFetchWord 32 0x00000012) with
    | .next t => some (t.flag, t.fault, t.pending)
    | _ => none) = some (false, false, []) := by decide
theorem test_host_form_ldA : (HostForm.ldA [0x30#8]).events State.reset.cfg =
    [.write 0 0x00014 4 1#32, .write 0 0x10000 4 0x30#32] := by decide

/-! ## Witnesses: the hypotheses of each statement are met together, at the ends of their ranges -/

/-- A machine with its window at 0x1000, and an event before it. -/
def based (e : HostEvent) (s : State) : State :=
  { s with cfg := { maxlen := 64, tail := .pad, base := 0x1000 }, pending := [e] }

theorem witness_DecodeOfEncode : (Instr.fromchunks 65535).wf = true := by decide
theorem witness_EncodeOfDecode : decode 0xFFFF0010#32 = .ok (.shl 65535) := by decide
theorem witness_IllegalWordsFault : decode 0x00000000#32 = .error .unassignedOp := by decide
theorem witness_StepRunsDecodedCommand :
    let s := based (.write 0 (0x1000 + 0x00004) 4 0x00040010#32) (loaded [0x12#8] [] [])
    let u := based (.write 0 (0x1000 + 0x00004) 4 0x00000000#32) State.reset
    (s.rst = false ∧ s.fault = false ∧ s.pending = .write 0 (s.cfg.base + 0x00004) 4 0x00040010#32 :: [] ∧
      decode 0x00040010#32 = .ok (.shl 4)) ∧
    (u.rst = false ∧ u.fault = false ∧ u.pending = .write 0 (u.cfg.base + 0x00004) 4 0x00000000#32 :: [] ∧
      decode 0x00000000#32 = .error .unassignedOp) := by decide
theorem witness_CmdFormRunsCommand :
    State.reset.rst = false ∧ State.reset.fault = false ∧ (Instr.bitget 0).wf = true := by decide
theorem witness_ShiftClauses :
    let s := loaded [0x12#8, 0x34#8] [] []
    s.widthA ≤ 16 ∧ 15 < s.widthA ∧ 0 < s.widthA ∧ (loaded [] [] []).widthA ≤ 0 := by decide
theorem witness_RevReversesBits :
    let s := loaded [0x12#8, 0x34#8] [] []
    0 < s.widthA ∧ 15 < s.widthA ∧ 0 < s.lengthA ∧ 1 < s.lengthA := by decide
theorem witness_BigEndianPairs :
    let s := loaded [0x12#8, 0x34#8] [0xFF#8] []
    (1 < s.lengthA ∧ 1 + s.lengthB = 0 + s.lengthA) ∧ (0 < s.lengthA ∧ 0 + s.lengthB < s.lengthA) := by
  decide
theorem witness_BeorResultOrFault :
    let s := loaded [0x12#8, 0x34#8] [0xFF#8, 0x01#8] []
    let u := loaded [0x12#8, 0x34#8] [0xFF#8] []
    (s.lengthA ≤ s.lengthB ∧ 0 < s.lengthA ∧ 0 + s.lengthB = 0 + s.lengthA) ∧ u.lengthB < u.lengthA := by
  decide
theorem witness_LittleEndianResults :
    let s := loaded [0x12#8, 0x34#8] [0xFF#8] []
    (0 < s.lengthA ∧ 0 < s.lengthB) ∧ (1 < s.lengthA ∧ ¬1 < s.lengthB) := by decide
theorem witness_CountClauses :
    let s := loaded [0x00#8, 0x10#8] [] []
    let z := loaded [0x00#8] [] []
    (11 < s.widthA ∧ bitAt s.bufA 11 = true ∧ (∀ k, k < 11 → bitAt s.bufA k = false) ∧
      (∀ k, 11 < k → k < s.widthA → bitAt s.bufA k = false)) ∧
      (∀ j, j < z.widthA → bitAt z.bufA j = false) := by
  refine ⟨⟨by decide, by decide, by decide, fun k h1 h2 => ?_⟩, by decide⟩
  have h16 : k < 16 := h2
  interval_cases k <;> decide
theorem witness_ShiftRoundTripClearsHighBits : 15 < (loaded [0x12#8, 0x34#8] [] []).widthA := by decide
theorem witness_BitsWritesBitSequence :
    ({ State.reset with lenA := 4096#16 } : State).lengthA ≤ 4096 ∧ (loaded [0x12#8] [] []).lengthA ≤ 4096 ∧
      7 < (loaded [0x12#8] [] []).widthA := by
  decide
theorem witness_BitgetReadsBit :
    let s := loaded [0x0F#8] [] []
    0 < s.widthA ∧ 7 < s.widthA ∧ s.widthA ≤ 8 ∧ s.widthA ≤ 65535 ∧ (loaded [] [] []).widthA ≤ 0 := by decide
theorem witness_ChunksRegroupsBits :
    let s := loaded [0x12#8, 0x34#8, 0x56#8, 0x78#8] [] []
    let d := { s with cfg := { maxlen := 64, tail := .drop, base := 0 } }
    (1 ≤ 32 ∧ 32 ≤ 32 ∧ 32 ≤ ChunkType.width .u64 ∧ s.lengthA ≤ 4096 ∧ s.cfg.tail = .pad) ∧
      (1 ≤ 1 ∧ 1 ≤ 32 ∧ 1 ≤ ChunkType.width .u8 ∧ d.lengthA ≤ 4096 ∧ d.cfg.tail = .drop) ∧
      (0 < 1 ∧ 32 < 33 ∧ ChunkType.width .u8 < 9 ∧ 65535 < 65536) := by decide
theorem witness_FrombitsPacksBits :
    ({ State.reset with lenS := 32768#16 } : State).lengthS ≤ 32768 ∧ 0 < ((loaded [] [] [1#64]).lengthS + 7) / 8 := by
  decide
theorem witness_FromchunksPacksChunks :
    let s := { State.reset with lenS := 16#16 }
    let u := { State.reset with lenS := 17#16 }
    (1 ≤ 32 ∧ 32 ≤ 32 ∧ s.cfg.legal = true ∧ (s.lengthS * 32 + 7) / 8 ≤ s.cfg.maxlen ∧
      63 < (s.lengthS * 32 + 7) / 8) ∧
    (u.cfg.legal = true ∧ u.cfg.maxlen < (u.lengthS * 32 + 7) / 8) ∧ (0 < 1 ∧ 32 < 33) := by decide
theorem witness_ChunkRoundTripRestoresA :
    let s := loaded [0x4D#8, 0x61#8, 0x6E#8] [] []
    1 ≤ 6 ∧ 6 ≤ 32 ∧ 6 ≤ ChunkType.width .u8 ∧ s.cfg.legal = true ∧ s.lengthA ≤ s.cfg.maxlen ∧
      s.widthA % 6 = 0 := by decide
theorem witness_CmpOrdersValues :
    ((loaded [] [0x01#8] []).valA < (loaded [] [0x01#8] []).valB) ∧
      ((loaded [0x05#8] [0x00#8, 0x05#8] []).valA = (loaded [0x05#8] [0x00#8, 0x05#8] []).valB) ∧
      ((loaded [0x01#8, 0x00#8] [0xFF#8] []).valB < (loaded [0x01#8, 0x00#8] [0xFF#8] []).valA) := by
  decide
theorem witness_DivRemClauses :
    (loaded [0x12#8] [] []).valB = 0 ∧ (loaded [0x12#8] [0x00#8, 0x01#8] []).valB ≠ 0 := by decide
theorem witness_SerialAddSubAgree :
    let s := loaded [0xFF#8, 0xFF#8] [0x01#8] []
    let e := loaded [0xFF#8] [0x01#8] []
    s.lengthB ≤ s.lengthA ∧ e.lengthB ≤ e.lengthA := by decide
theorem witness_LongDivisionAgrees : (loaded [0x0C#8] [0x08#8] []).valB ≠ 0 := by decide
theorem witness_ByteShiftAgrees : 12 < (loaded [0x12#8, 0x34#8] [] []).widthA := by decide
theorem witness_ResidualPackerAgrees :
    let s := loaded [] [] [5#64, 5#64, 5#64]
    1 ≤ 3 ∧ 3 ≤ 32 ∧ s.cfg.legal = true ∧ (s.lengthS * 3 + 7) / 8 ≤ s.cfg.maxlen := by decide
theorem witness_WhoWritesWhat :
    Instr.add.mnemonic ≠ .cmp ∧ Instr.add.mnemonic ≠ .lzc ∧ Instr.add.mnemonic ≠ .tzc ∧
      Instr.add.mnemonic ≠ .movab ∧ Instr.add.mnemonic ≠ .swap ∧ Instr.add.mnemonic ≠ .frombits ∧
      Instr.add.mnemonic ≠ .fromchunks ∧ Instr.add.mnemonic ≠ .bits ∧ Instr.add.mnemonic ≠ .chunks := by decide

/-- A loaded engine meets the invariant. -/
theorem loaded_inv : (loaded [0x12#8, 0x34#8] [0xFF#8] [1#64]).Inv where
  params := by decide
  lenA_le := by decide
  lenB_le := by decide
  lenS_le := by decide
  wfA := by decide
  wfB := by decide
  wfS := by decide
  withinA := by decide
  withinB := by decide
  withinS := by decide
  record_clear := fun _ => ⟨rfl, rfl, rfl⟩
  record_listed := fun h => by cases h

theorem witness_BeyondLengthsNeverWritten :
    (loaded [0x12#8, 0x34#8] [0xFF#8] [1#64]).Inv ∧ Instr.movab ≠ .swap := ⟨loaded_inv, by decide⟩
theorem witness_BeyondLengthsNeverRead :
    AgreeBelowLengths (loaded [0x12#8] [] []) { loaded [0x12#8] [] [] with bufA := [(0, 0x12#8), (5, 0x99#8)] } := by
  refine ⟨rfl, rfl, rfl, by decide, by decide, by decide, rfl, rfl, ⟨rfl, rfl, rfl, rfl⟩,
    ⟨rfl, rfl, rfl, rfl⟩⟩
theorem witness_CommandFaultTable :
    (decode 0x00000000#32 = .error .unassignedOp) ∧
    (decode 0x00090022#32 = .ok (.chunks 9 .u8) ∧ min (ChunkType.width .u8) 32 < 9) ∧
    (decode 0x00000024#32 = .ok (.fromchunks 0) ∧ 0 < 1) ∧
    (decode 0x00080021#32 = .ok (.bitget 8) ∧ 8 * (loaded [0x0F#8] [] []).lengthA ≤ 8) ∧
    (decode 0x00000015#32 = .ok .beor ∧
      (loaded [0x0F#8] [] []).lengthB < (loaded [0x0F#8] [] []).lengthA) ∧
    (decode 0x00200024#32 = .ok (.fromchunks 32) ∧ 1 ≤ 32 ∧ 32 ≤ 32 ∧
      ({ State.reset with lenS := 17#16 } : State).cfg.maxlen <
        (({ State.reset with lenS := 17#16 } : State).lengthS * 32 + 7) / 8) ∧
    (decode 0x00000031#32 = .ok .add ∧ Contract .add State.reset = true) := by decide
theorem witness_CommandFaultTable_fits :
    Contract (.fromchunks 32) { State.reset with lenS := 16#16 } = true ∧
      Contract (.bitget 7) (loaded [0x0F#8] [] []) = true ∧ Contract (.chunks 8 .u8) State.reset = true := by
  decide
theorem witness_FaultedStateIsFrozen :
    faulted.fault = true ∧
      WriteNext (based (.write 0 0x1004 4 0x13#32) faulted) .cmd 0x13#32 [] ∧
      ReadNext (based (.read 0 0x1008 4) faulted) .status [] ∧
      (match step { faulted with rst := true, pending := [.rst false] } with
        | .next t => t.fault = false
        | _ => False) := by
  exact ⟨rfl, ⟨rfl, rfl, rfl, rfl⟩, ⟨rfl, rfl, rfl, rfl⟩, rfl⟩
theorem witness_FaultPersistsWithoutReset :
    let s := based (.write 0 0x1004 4 0x13#32) faulted
    s.fault = true ∧ (∀ level, HostEvent.rst level ∉ s.pending) ∧
      Host.Core.run Sys2Proof.core 2 s = .next { s with pending := [] } := by
  refine ⟨rfl, fun level h => ?_, by rfl⟩
  simp [based] at h
theorem witness_WindowMapIsExact :
    Params.reference.legal = true ∧ 0x40FFC < 0x80000 ∧ 0x40FFC % 4 = 0 ∧
      slotAt Params.reference 0x40FFC = some (.elemHi 511) := by decide
theorem witness_RegisterReads : State.reset.cfg.legal = true := by decide
theorem witness_ReadsHaveNoSideEffect : ReadNext (based (.read 0 (0x1000 + 0x100FC) 4) State.reset) (.byteA 63) [] :=
  ⟨rfl, rfl, rfl, rfl⟩
theorem witness_ReadOnlyWritesIgnored :
    WriteNext (based (.write 0 (0x1000 + 0x00008) 4 0xFFFFFFFF#32) State.reset) .status 0xFFFFFFFF#32 [] ∧
      ReadNext (based (.read 0 (0x1000 + 0x00004) 4) State.reset) .cmd [] :=
  ⟨⟨rfl, rfl, rfl, rfl⟩, ⟨rfl, rfl, rfl, rfl⟩⟩
theorem witness_LengthWrites :
    WriteNext (based (.write 0 (0x1000 + 0x00014) 4 64#32) State.reset) .lenA 64#32 [] ∧
    WriteNext (based (.write 0 (0x1000 + 0x00018) 4 65#32) State.reset) .lenB 65#32 [] ∧
    WriteNext (based (.write 0 (0x1000 + 0x0001C) 4 512#32) State.reset) .lenS 512#32 [] ∧
    State.reset.fault = false ∧ (64#32).toNat ≤ State.reset.cfg.maxlen ∧
    State.reset.cfg.maxlen < (65#32).toNat ∧ (512#32).toNat ≤ 8 * State.reset.cfg.maxlen ∧
    8 * State.reset.cfg.maxlen < (513#32).toNat :=
  ⟨⟨rfl, rfl, rfl, rfl⟩, ⟨rfl, rfl, rfl, rfl⟩, ⟨rfl, rfl, rfl, rfl⟩, rfl, by decide, by decide, by decide, by decide⟩
theorem witness_ByteWindows :
    WriteNext (based (.write 0 (0x1000 + 0x100FC) 4 0x1AB#32) State.reset) (.byteA 63) 0x1AB#32 [] ∧
      WriteNext (based (.write 0 (0x1000 + 0x20000) 4 0x1AB#32) State.reset) (.byteB 0) 0x1AB#32 [] ∧
      ReadNext (based (.read 0 (0x1000 + 0x10000) 4) State.reset) (.byteA 0) [] ∧
      ReadNext (based (.read 0 (0x1000 + 0x200FC) 4) State.reset) (.byteB 63) [] ∧
      State.reset.fault = false :=
  ⟨⟨rfl, rfl, rfl, rfl⟩, ⟨rfl, rfl, rfl, rfl⟩, ⟨rfl, rfl, rfl, rfl⟩, ⟨rfl, rfl, rfl, rfl⟩, rfl⟩
theorem witness_StreamWindows :
    WriteNext (based (.write 0 (0x1000 + 0x40FF8) 4 7#32) State.reset) (.elemLo 511) 7#32 [] ∧
      WriteNext (based (.write 0 (0x1000 + 0x40004) 4 7#32) State.reset) (.elemHi 0) 7#32 [] ∧
      ReadNext (based (.read 0 (0x1000 + 0x40000) 4) State.reset) (.elemLo 0) [] ∧
      ReadNext (based (.read 0 (0x1000 + 0x40FFC) 4) State.reset) (.elemHi 511) [] ∧
      State.reset.fault = false :=
  ⟨⟨rfl, rfl, rfl, rfl⟩, ⟨rfl, rfl, rfl, rfl⟩, ⟨rfl, rfl, rfl, rfl⟩, ⟨rfl, rfl, rfl, rfl⟩, rfl⟩
theorem witness_AccessesWithoutMeaningAreRefused :
    let s := based (.read 0 (0x1000 + 0x100FC) 4) State.reset
    let u := based (.read 0 (0x1000 + 0x10100) 4) State.reset
    (s.pending = .read 0 (s.cfg.base + 0x100FC) 4 :: [] ∧ s.rst = false ∧ s.cfg.legal = true ∧
      0x100FC < 0x80000 ∧ 4 = 4 ∧ 0x100FC % 4 = 0 ∧ mappedOffset s.cfg 0x100FC = true) ∧
    (u.pending = .read 0 (u.cfg.base + 0x10100) 4 :: [] ∧ u.rst = false ∧ u.cfg.legal = true ∧
      0x10100 < 0x80000 ∧ mappedOffset u.cfg 0x10100 = false) := by decide
theorem witness_StrayAccessesStop :
    let e := HostEvent.write 1 0x1004 4 0x13#32
    let o := HostEvent.read 0 0x81000 4
    ({ based e State.reset with rst := true } : State).rst = true ∧ (based e State.reset).pending = e :: [] ∧
      (based e State.reset).rst = false ∧ 1 ≠ 0 ∧ (based o State.reset).pending = o :: [] ∧
      (based o State.reset).cfg.base + 0x80000 ≤ 0x81000 ∧ 0x0FFC < (based o State.reset).cfg.base := by
  decide
theorem witness_ReleaseOfRstResets :
    let s := { faulted with rst := true, pending := [HostEvent.rst false] }
    s.rst = true ∧ s.pending = .rst false :: [] := by decide
theorem witness_StepKeepsInvariant :
    let s := loaded [0x12#8, 0x34#8] [0xFF#8] [1#64]
    { s with pending := [memWrite s.cfg 0x00004 0x00000016#32] }.Inv ∧
      (match step { s with pending := [memWrite s.cfg 0x00004 0x00000016#32] } with
        | .next t => some (t.bufA.read 1)
        | _ => none) = some 0xCB#8 :=
  ⟨{ loaded_inv with }, by decide⟩

end Sys2Proof.Tests
end

/-! Which rows of the opcode table have which effect, and what each effect keeps beyond the lengths and across
the state: the commands' side of R7, R22, R25, R28, R100, R150 and R180. -/

namespace Sys2Proof.Machine

/-- The shapes of `Effect` with the rows of R86 that may have each: any row may fault, write FLAG alone or write
bytes of A below LEN_A; the other shapes belong to the rows they name. -/
inductive RowEffect (s : State) : Mnemonic → State → Prop where
  | fault (m : Mnemonic) (c : FaultCode) (i0 i1 : Word) : RowEffect s m (s.enterFault c i0 i1)
  | status (m : Mnemonic) (b : Bool) : RowEffect s m { s with flag := b }
  | bytesA (m : Mnemonic) (b : Bool) (f : Nat → Byte) : RowEffect s m { s.storeA f with flag := b }
  | result {m : Mnemonic} (v : Dword) (hm : m = .cmp ∨ m = .lzc ∨ m = .tzc) :
      RowEffect s m { s.setRes v with flag := false }
  | newA {m : Mnemonic} (n : Nat) (f : Nat → Byte) (hm : m = .frombits ∨ m = .fromchunks)
      (hn : s.lengthS ≤ s.cfg.maxs → n ≤ s.cfg.maxlen) : RowEffect s m { s.newA n f with flag := false }
  | newS {m : Mnemonic} (n : Nat) (f : Nat → Dword) (hm : m = .bits ∨ m = .chunks) (hn : n ≤ s.widthA) :
      RowEffect s m { s.newS n f with flag := false }
  | copyAB : RowEffect s .movab
      { s with bufB := s.bufB.fill s.lengthA s.bufA.read, lenB := s.lenA, flag := false }
  | swapAB : RowEffect s .swap
      { s with bufA := s.bufB, bufB := s.bufA, lenA := s.lenB, lenB := s.lenA, flag := false }

/-- The bytes that hold `LS` booleans fit in A when S is within capacity (R6, R26, R154). -/
theorem bytesForBits_lengthS_le {s : State} (h : s.lengthS ≤ s.cfg.maxs) :
    bytesForBits s.lengthS ≤ s.cfg.maxlen := by
  unfold Params.maxs at h
  unfold bytesForBits
  omega

/-- A chunk width CHUNKS accepts is at least 1 (R153). -/
theorem one_le_of_not_badChunkWidth {n : Nat} {ct : ChunkType} (h : ¬ badChunkWidth n ct = true) : 1 ≤ n := by
  simp only [badChunkWidth, Bool.or_eq_true, decide_eq_true_eq, not_or] at h
  omega

/-- Every command answers a next state, by an effect its row may have. -/
theorem exec_rowEffect (i : Instr) (s : State) : ∃ t, exec i s = .next t ∧ RowEffect s i.mnemonic t := by
  cases i with
  | beor =>
    by_cases h : s.lengthB < s.lengthA
    · exact ⟨_, if_pos h, .fault _ _ _ _⟩
    · exact ⟨_, if_neg h, .bytesA _ _ _⟩
  | bitget k =>
    by_cases h : s.widthA ≤ k
    · exact ⟨_, if_pos h, .fault _ _ _ _⟩
    · exact ⟨_, if_neg h, .status _ _⟩
  | chunks n ct =>
    by_cases h : badChunkWidth n ct = true
    · exact ⟨_, if_pos h, .fault _ _ _ _⟩
    · exact ⟨_, if_neg h, .newS _ _ (.inr rfl) (chunkCount_le _ _ (one_le_of_not_badChunkWidth h))⟩
  | fromchunks n =>
    by_cases hw : badPackWidth n = true
    · exact ⟨_, if_pos hw, .fault _ _ _ _⟩
    · by_cases hc : s.cfg.maxlen < bytesForBits (s.lengthS * n)
      · exact ⟨_, (if_neg hw).trans (if_pos hc), .fault _ _ _ _⟩
      · exact ⟨_, (if_neg hw).trans (if_neg hc), .newA _ _ (.inr rfl) fun _ => Nat.le_of_not_lt hc⟩
  | div | rem =>
    by_cases h : s.valB = 0
    · exact ⟨_, if_pos h, .status _ _⟩
    · exact ⟨_, if_neg h, .bytesA _ _ _⟩
  | shl | shr | rev | not | beand | bexor | leand | leor | lexor | add | sub | mul =>
    exact ⟨_, rfl, .bytesA _ _ _⟩
  | allz | allo => exact ⟨_, rfl, .status _ _⟩
  | lzc => exact ⟨_, rfl, .result _ (.inr (.inl rfl))⟩
  | tzc => exact ⟨_, rfl, .result _ (.inr (.inr rfl))⟩
  | cmp => exact ⟨_, rfl, .result _ (.inl rfl)⟩
  | bits => exact ⟨_, rfl, .newS _ _ (.inl rfl) le_rfl⟩
  | frombits => exact ⟨_, rfl, .newA _ _ (.inl rfl) bytesForBits_lengthS_le⟩
  | movab => exact ⟨_, rfl, .copyAB⟩
  | swap => exact ⟨_, rfl, .swapAB⟩

/-! ## Frames -/

theorem SameB.refl (s : State) : SameB s s := ⟨rfl, fun _ => rfl⟩

theorem SameS.refl (s : State) : SameS s s := ⟨rfl, fun _ => rfl⟩

theorem SameHost.refl (s : State) : SameHost s s := ⟨rfl, rfl, rfl, rfl⟩

/-- No effect touches the parameters, RST, the pending events or the word last read. -/
theorem RowEffect.sameHost {s t : State} {m : Mnemonic} (h : RowEffect s m t) : SameHost s t := by
  cases h <;> exact SameHost.refl s

/-- RES changes only by CMP, LZC and TZC (R28). -/
theorem RowEffect.res_eq {s t : State} {m : Mnemonic} (h : RowEffect s m t) (hcmp : m ≠ .cmp) (hlzc : m ≠ .lzc)
    (htzc : m ≠ .tzc) : t.res = s.res := by
  cases h with
  | result v hm => simp [hcmp, hlzc, htzc] at hm
  | fault | status | bytesA | newA | newS | copyAB | swapAB => rfl

/-- B and LEN_B change only by MOVAB and SWAP (R22). -/
theorem RowEffect.sameB {s t : State} {m : Mnemonic} (h : RowEffect s m t) (hmovab : m ≠ .movab)
    (hswap : m ≠ .swap) : SameB s t := by
  cases h with
  | copyAB => exact absurd rfl hmovab
  | swapAB => exact absurd rfl hswap
  | fault | status | bytesA | result | newA | newS => exact SameB.refl s

/-- LEN_A changes only by FROMBITS, FROMCHUNKS and SWAP (R7, R100, R180). -/
theorem RowEffect.lenA_eq {s t : State} {m : Mnemonic} (h : RowEffect s m t) (hbits : m ≠ .frombits)
    (hchunks : m ≠ .fromchunks) (hswap : m ≠ .swap) : t.lenA = s.lenA := by
  cases h with
  | newA n f hm => simp [hbits, hchunks] at hm
  | swapAB => exact absurd rfl hswap
  | fault | status | bytesA | result | newS | copyAB => rfl

/-- S and LEN_S change only by BITS and CHUNKS (R150). -/
theorem RowEffect.sameS {s t : State} {m : Mnemonic} (h : RowEffect s m t) (hbits : m ≠ .bits)
    (hchunks : m ≠ .chunks) : SameS s t := by
  cases h with
  | newS n f hm => simp [hbits, hchunks] at hm
  | fault | status | bytesA | result | newA | copyAB | swapAB => exact SameS.refl s

/-- Settles O40: each clause is a frame of the effects a row may have. -/
theorem whoWritesWhat : Obligations.WhoWritesWhat := by
  intro i s
  obtain ⟨t, ht, heff⟩ := exec_rowEffect i s
  exact ⟨t, ht, heff.res_eq, heff.sameB, heff.lenA_eq, heff.sameS, heff.sameHost⟩

/-! ## Lengths a command computes -/

/-- A length a command computes is taken mod 2^16, so it never exceeds what was computed (log entry 17). -/
theorem State.newA_lengthA_le (s : State) (n : Nat) (f : Nat → Byte) : (s.newA n f).lengthA ≤ n :=
  (BitVec.toNat_ofNat n 16).trans_le (Nat.mod_le _ _)

theorem State.newS_lengthS_le (s : State) (n : Nat) (f : Nat → Dword) : (s.newS n f).lengthS ≤ n :=
  (BitVec.toNat_ofNat n 16).trans_le (Nat.mod_le _ _)

/-- Within a legal capacity the length A receives is the one computed. -/
theorem State.newA_lengthA {s : State} (hp : s.cfg.legal = true) {n : Nat} (hn : n ≤ s.cfg.maxlen)
    (f : Nat → Byte) : (s.newA n f).lengthA = n := by
  have hcap := (Params.legal_iff s.cfg).mp hp
  exact (BitVec.toNat_ofNat n 16).trans (Nat.mod_eq_of_lt (by omega))

/-- Within a legal capacity the length S receives is the one computed. -/
theorem State.newS_lengthS {s : State} (hp : s.cfg.legal = true) {n : Nat} (hn : n ≤ s.cfg.maxs)
    (f : Nat → Dword) : (s.newS n f).lengthS = n := by
  have hcap := (Params.legal_iff s.cfg).mp hp
  unfold Params.maxs at hn
  exact (BitVec.toNat_ofNat n 16).trans (Nat.mod_eq_of_lt (by omega))

/-- The width of A fits in S when A is within capacity (R6, R26). -/
theorem State.Inv.widthA_le {s : State} (h : s.Inv) : s.widthA ≤ s.cfg.maxs :=
  Nat.mul_le_mul_left 8 h.lenA_le

/-! ## Beyond the lengths -/

/-- Positions at or past the lengths of `t` keep in `t` what they read in `s` (R25). -/
def KeepsBeyond (s t : State) : Prop :=
  (∀ p, t.lengthA ≤ p → t.bufA.read p = s.bufA.read p) ∧
    (∀ p, t.lengthB ≤ p → t.bufB.read p = s.bufB.read p) ∧
    (∀ p, t.lengthS ≤ p → t.bufS.read p = s.bufS.read p)

/-- A storage filled below `n` keeps every position past a length that is at least `n`. -/
theorem Memory.read_fill_past {w n L : Nat} {m : Memory w} {f : Nat → BitVec w} (h : n ≤ L) :
    ∀ p, L ≤ p → (m.fill n f).read p = m.read p :=
  fun p hp => Memory.read_fill_of_le m n f p (h.trans hp)

/-- Every effect but an exchange writes only below the lengths it leaves. -/
theorem RowEffect.keepsBeyond {s t : State} {m : Mnemonic} (h : RowEffect s m t) (hs : s.Inv)
    (hswap : m ≠ .swap) : KeepsBeyond s t := by
  cases h with
  | swapAB => exact absurd rfl hswap
  | bytesA m b f => exact ⟨Memory.read_fill_past le_rfl, fun _ _ => rfl, fun _ _ => rfl⟩
  | newA n f hm hn =>
    have hlen : (s.newA n f).lengthA = n := State.newA_lengthA hs.params (hn hs.lenS_le) f
    exact ⟨Memory.read_fill_past hlen.ge, fun _ _ => rfl, fun _ _ => rfl⟩
  | newS n f hm hn =>
    have hlen : (s.newS n f).lengthS = n := State.newS_lengthS hs.params (hn.trans hs.widthA_le) f
    exact ⟨fun _ _ => rfl, fun _ _ => rfl, Memory.read_fill_past hlen.ge⟩
  | copyAB => exact ⟨fun _ _ => rfl, Memory.read_fill_past le_rfl, fun _ _ => rfl⟩
  | fault | status | result => exact ⟨fun _ _ => rfl, fun _ _ => rfl, fun _ _ => rfl⟩

/-- The one command of the row `swap`. -/
theorem Instr.mnemonic_eq_swap_iff (i : Instr) : i.mnemonic = .swap ↔ i = .swap := by
  cases i <;> simp [Instr.mnemonic]

/-- Settles O41: a fill reaches only below the length that the effect leaves. -/
theorem beyondLengthsNeverWritten : Obligations.BeyondLengthsNeverWritten := by
  intro i s hs hi
  obtain ⟨t, ht, heff⟩ := exec_rowEffect i s
  exact ⟨t, ht, heff.keepsBeyond hs (mt (Instr.mnemonic_eq_swap_iff i).mp hi)⟩

end Sys2Proof.Machine

/-! The invariant of the machine: it holds at reset, and every command, every write of a slot and every change of
RST keeps it (R20, R26, R30, R33, R37, R232). -/

namespace Sys2Proof.Machine

/-! ## Reset -/

/-- Settles O55: State.reset gives each item the value R37 states. -/
theorem resetValues : Obligations.ResetValues := by
  unfold Obligations.ResetValues
  refine ⟨fun i => ⟨?_, ?_⟩, fun j => ?_, ?_⟩
  · exact Memory.read_nil i
  · exact Memory.read_nil i
  · exact Memory.read_nil j
  · decide

/-- A state with every item of R20 at its reset value and legal parameters meets the invariant. -/
theorem inv_afterReset (s : State) (hp : s.cfg.legal = true) : s.afterReset.Inv where
  params := hp
  lenA_le := Nat.zero_le _
  lenB_le := Nat.zero_le _
  lenS_le := Nat.zero_le _
  wfA := rfl
  wfB := rfl
  wfS := rfl
  withinA := rfl
  withinB := rfl
  withinS := rfl
  record_clear := fun _ => ⟨rfl, rfl, rfl⟩
  record_listed := fun h => absurd h Bool.false_ne_true

/-- Settles O57: State.reset is itself a state just after reset, with the reference parameters. -/
theorem invariantAtReset : Obligations.InvariantAtReset := inv_afterReset State.reset (by decide)

/-! ## Faults and commands -/

/-- Fault entry keeps the invariant when R232 lists the record it leaves. -/
theorem State.Inv.enterFault {s : State} (h : s.Inv) {c : FaultCode} {i0 i1 : Word}
    (hrec : (s.enterFault c i0 i1).recordListed) : (s.enterFault c i0 i1).Inv :=
  { h with
    record_clear := fun hf => absurd hf (by simp)
    record_listed := fun _ => hrec }

/-- A command's fault leaves a record R232 lists: a code 1 to 5 with the offset of CMD. -/
theorem recordListed_of_command {s : State} {c : FaultCode} (i0 : Word) (hc : c ≠ .lenRange) :
    (s.enterFault c i0 0x00004#32).recordListed := by
  cases c with
  | lenRange => exact absurd rfl hc
  | illegalCmd | chunkWidth | bitIndex | operandLength | capacity =>
    exact .inl ⟨by simp [FaultCode.code], rfl⟩

/-- A LEN_RANGE fault leaves a record R232 lists: code 6 with the offset of a length register. -/
theorem recordListed_of_lengthWrite {s : State} (i0 : Word) {off : Word}
    (hoff : off = 0x00014#32 ∨ off = 0x00018#32 ∨ off = 0x0001C#32) :
    (s.enterFault .lenRange i0 off).recordListed := .inr ⟨rfl, hoff⟩

/-- Every effect a command can have keeps the invariant. -/
theorem Effect.inv {i : Instr} {s t : State} (h : Effect i s (.next t)) (hs : s.Inv) : t.Inv := by
  cases h with
  | fault c hc => exact hs.enterFault (recordListed_of_command _ hc)
  | status b => exact { hs with }
  | result v => exact { hs with }
  | bytesA b f =>
    exact { hs with wfA := Memory.fill_wf hs.wfA _ f, withinA := Memory.fill_within hs.withinA hs.lenA_le f }
  | newA n f hn =>
    have hcap : n ≤ s.cfg.maxlen := hn hs.lenS_le
    exact { hs with
      lenA_le := (s.newA_lengthA_le n f).trans hcap
      wfA := Memory.fill_wf hs.wfA n f
      withinA := Memory.fill_within hs.withinA hcap f }
  | newS n f hn =>
    have hcap : n ≤ s.cfg.maxs := hn.trans hs.widthA_le
    exact { hs with
      lenS_le := (s.newS_lengthS_le n f).trans hcap
      wfS := Memory.fill_wf hs.wfS n f
      withinS := Memory.fill_within hs.withinS hcap f }
  | copyAB =>
    exact { hs with
      lenB_le := hs.lenA_le
      wfB := Memory.fill_wf hs.wfB _ _
      withinB := Memory.fill_within hs.withinB hs.lenA_le _ }
  | swapAB =>
    exact { hs with
      lenA_le := hs.lenB_le, lenB_le := hs.lenA_le, wfA := hs.wfB, wfB := hs.wfA
      withinA := hs.withinB, withinB := hs.withinA }

/-- Every effect a command can have keeps the parameters (R6). -/
theorem Effect.cfg_eq {i : Instr} {s t : State} (h : Effect i s (.next t)) : t.cfg = s.cfg := by
  cases h <;> rfl

/-! ## Events -/

/-- `t` meets the invariant when `s` does, and has the parameters of `s`. -/
def KeepsInv (s t : State) : Prop := (s.Inv → t.Inv) ∧ t.cfg = s.cfg

/-- A command word keeps the invariant: it runs a command, or it is illegal and faults (R80, R87). -/
theorem executeWord_keepsInv {w : Word} {s t : State} (h : executeWord w s = .next t) : KeepsInv s t := by
  unfold executeWord at h
  split at h
  next i _ =>
    have heff : Effect i s (.next t) := h ▸ exec_effect i s
    exact ⟨heff.inv, heff.cfg_eq⟩
  next =>
    obtain rfl := raiseFault_next_iff.mp h
    exact ⟨fun hs => hs.enterFault (recordListed_of_command w (by decide)), rfl⟩

/-- A word within a capacity, cut to a length register, is within the capacity. -/
theorem truncate_le {w : Word} {cap : Nat} (h : w.toNat ≤ cap) : (w.truncate 16).toNat ≤ cap :=
  (BitVec.toNat_setWidth 16 w).trans_le ((Nat.mod_le _ _).trans h)

/-- A write of a mapped slot in the normal state keeps the invariant. -/
theorem writeSlot_keepsInv {s t : State} {r : Slot} {w : Word} (hr : r.exists s.cfg = true)
    (h : writeSlot s r w = .next t) : KeepsInv s t := by
  rcases writeSlot_cases h with ⟨_, hcmd⟩ | rfl | ⟨off, hoff, rfl⟩ | ⟨hle, rfl⟩ | ⟨hle, rfl⟩ | ⟨hle, rfl⟩ |
    ⟨i, v, rfl, rfl⟩ | ⟨i, v, rfl, rfl⟩ | ⟨j, v, hj, rfl⟩
  · exact executeWord_keepsInv hcmd
  · exact ⟨id, rfl⟩
  · exact ⟨fun hs => hs.enterFault (recordListed_of_lengthWrite w hoff), rfl⟩
  · exact ⟨fun hs => { hs with lenA_le := truncate_le hle }, rfl⟩
  · exact ⟨fun hs => { hs with lenB_le := truncate_le hle }, rfl⟩
  · exact ⟨fun hs => { hs with lenS_le := truncate_le hle }, rfl⟩
  · have hi : i < s.cfg.maxlen := of_decide_eq_true hr
    exact ⟨fun hs => { hs with
      wfA := Memory.write_wf hs.wfA i v, withinA := Memory.write_within hs.withinA hi v }, rfl⟩
  · have hi : i < s.cfg.maxlen := of_decide_eq_true hr
    exact ⟨fun hs => { hs with
      wfB := Memory.write_wf hs.wfB i v, withinB := Memory.write_within hs.withinB hi v }, rfl⟩
  · have hj : j < s.cfg.maxs := by rcases hj with rfl | rfl <;> exact of_decide_eq_true hr
    exact ⟨fun hs => { hs with
      wfS := Memory.write_wf hs.wfS j v, withinS := Memory.write_within hs.withinS hj v }, rfl⟩

/-- A host write of a mapped slot keeps the invariant, in the faulted state too (R58). -/
theorem hostWrite_keepsInv {s t : State} {r : Slot} {w : Word} (hr : r.exists s.cfg = true)
    (h : hostWrite s r w = .next t) : KeepsInv s t := by
  unfold hostWrite at h
  split at h
  · obtain rfl := Host.Outcome.next.inj h
    exact ⟨id, rfl⟩
  · exact writeSlot_keepsInv hr h

/-- Driving RST keeps the invariant: a release resets, and any other change is of the level alone (R260). -/
theorem driveRst_keepsInv (s : State) (level : Bool) : KeepsInv s (s.driveRst level) := by
  unfold State.driveRst
  split
  · exact ⟨fun hs => inv_afterReset s hs.params, rfl⟩
  · exact ⟨fun hs => { hs with }, rfl⟩

/-- Performing one event keeps the invariant. -/
theorem perform_keepsInv {e : HostEvent} {s t : State} (h : perform e s = .next t) : KeepsInv s t := by
  rcases perform_next_cases h with ⟨r, rfl⟩ | ⟨r, w, _, hw, off, hoff⟩ | ⟨level, _, rfl⟩
  · exact ⟨fun hs => { hs with }, rfl⟩
  · exact hostWrite_keepsInv (slotAt_exists hoff) hw
  · exact driveRst_keepsInv s level

/-- Settles O58: a step is idle, or performs the oldest event on the state without it. -/
theorem stepKeepsInvariant : Obligations.StepKeepsInvariant := by
  intro s t hs ht
  rcases step_eq s with ⟨_, hidle⟩ | ⟨e, rest, _, hstep⟩
  · obtain rfl := Host.Outcome.next.inj (hidle.symm.trans ht)
    exact ⟨hs, rfl⟩
  · obtain ⟨hkeep, hcfg⟩ := perform_keepsInv (hstep.symm.trans ht)
    exact ⟨hkeep { hs with }, hcfg⟩

end Sys2Proof.Machine

/-! What the registers of the window read: STATUS as a number, and the halves and extensions of the other items
(R31, R32, R33, R51, R60). -/

namespace Sys2Proof.Machine

/-- Joining words places the left one above the right one. -/
theorem toNat_append_eq_add {m n : Nat} (x : BitVec m) (y : BitVec n) :
    (x ++ y).toNat = x.toNat * 2 ^ n + y.toNat := by
  rw [BitVec.toNat_append, ← Nat.shiftLeft_add_eq_or_of_lt y.isLt, Nat.shiftLeft_eq]

/-- STATUS as a number: FLAG, FAULT, and FCODE sixteen times over (R33). -/
theorem statusWord_toNat (s : State) :
    (statusWord s).toNat = (if s.fault then s.fcode.toNat else 0) * 16 + s.fault.toNat * 2 + s.flag.toNat := by
  unfold statusWord
  simp only [toNat_append_eq_add, BitVec.toNat_ofBool, apply_ite BitVec.toNat, BitVec.toNat_ofNat, Nat.zero_mod]
  omega

/-- The two low bits of STATUS are FLAG and FAULT (R33). -/
theorem statusWord_flags (s : State) :
    (statusWord s).getLsbD 0 = s.flag ∧ (statusWord s).getLsbD 1 = s.fault := by
  have hflag := Bool.toNat_lt s.flag
  have hfault := Bool.toNat_lt s.fault
  have hbit0 : (statusWord s).toNat / 2 ^ 0 % 2 = s.flag.toNat := by rw [statusWord_toNat]; omega
  have hbit1 : (statusWord s).toNat / 2 ^ 1 % 2 = s.fault.toNat := by rw [statusWord_toNat]; omega
  unfold BitVec.getLsbD
  rw [Nat.testBit_eq_decide_div_mod_eq, Nat.testBit_eq_decide_div_mod_eq, hbit0, hbit1]
  simp

/-- Above the flags STATUS holds two zero bits and then FCODE, or 0 without a fault (R33). -/
theorem statusWord_fields (s : State) :
    (statusWord s).toNat / 16 = (if s.fault then s.fcode.toNat else 0) ∧ (statusWord s).toNat / 4 % 4 = 0 := by
  have hflag := Bool.toNat_lt s.flag
  have hfault := Bool.toNat_lt s.fault
  rw [statusWord_toNat]
  omega

/-- The halves of RES join to RES (R51). -/
theorem resHi_append_resLo (s : State) : readSlot s .resHi ++ readSlot s .resLo = s.res :=
  calc (s.res.extractLsb' 32 32 ++ s.res.extractLsb' 0 32 : Dword)
    _ = s.res.extractLsb' 0 64 := BitVec.extractLsb'_append_extractLsb'_eq_extractLsb' rfl
    _ = s.res := BitVec.extractLsb'_eq_self

/-- CAP reads MAXLEN, which a legal machine keeps far below 2^32 (R6, R32). -/
theorem readSlot_cap (s : State) (hp : s.cfg.legal = true) : (readSlot s .cap).toNat = s.cfg.maxlen := by
  have hcap := (Params.legal_iff s.cfg).mp hp
  exact (BitVec.toNat_ofNat _ _).trans (Nat.mod_eq_of_lt (by omega))

/-- A length register reads the length (R60). -/
theorem toNat_zeroExtend_length (v : BitVec 16) : (v.zeroExtend 32).toNat = v.toNat :=
  BitVec.toNat_setWidth_of_le (by decide)

/-- Settles O48: ID, FINFO0 and FINFO1 read by definition, the others by the lemmas above. -/
theorem registerReads : Obligations.RegisterReads := by
  intro s
  obtain ⟨hflag, hfault⟩ := statusWord_flags s
  obtain ⟨hcode, hzero⟩ := statusWord_fields s
  exact ⟨rfl, readSlot_cap s, hflag, hfault, hcode, hzero, resHi_append_resLo s,
    toNat_zeroExtend_length s.lenA, toNat_zeroExtend_length s.lenB, toNat_zeroExtend_length s.lenS, rfl, rfl⟩

end Sys2Proof.Machine

/-! What lies beyond the lengths is never read (R25): agreement below the lengths is a relation that every command
keeps. First what two agreeing states have in common, then one rule per effect, then the commands. -/

namespace Sys2Proof.Machine

namespace AgreeBelowLengths

variable {s s' : State}

/-! ## What agreeing states have in common -/

theorem lengthA_eq (h : AgreeBelowLengths s s') : s'.lengthA = s.lengthA := by
  obtain ⟨hlen, _⟩ := h
  exact congrArg BitVec.toNat hlen

theorem lengthB_eq (h : AgreeBelowLengths s s') : s'.lengthB = s.lengthB := by
  obtain ⟨_, hlen, _⟩ := h
  exact congrArg BitVec.toNat hlen

theorem lengthS_eq (h : AgreeBelowLengths s s') : s'.lengthS = s.lengthS := by
  obtain ⟨_, _, hlen, _⟩ := h
  exact congrArg BitVec.toNat hlen

theorem readA_eq (h : AgreeBelowLengths s s') {i : Nat} (hi : i < s.lengthA) : s'.bufA.read i = s.bufA.read i := by
  obtain ⟨_, _, _, hA, _⟩ := h
  exact hA i hi

theorem readB_eq (h : AgreeBelowLengths s s') {i : Nat} (hi : i < s.lengthB) : s'.bufB.read i = s.bufB.read i := by
  obtain ⟨_, _, _, _, hB, _⟩ := h
  exact hB i hi

theorem readS_eq (h : AgreeBelowLengths s s') {j : Nat} (hj : j < s.lengthS) : s'.bufS.read j = s.bufS.read j := by
  obtain ⟨_, _, _, _, _, hS, _⟩ := h
  exact hS j hj

theorem cfg_eq (h : AgreeBelowLengths s s') : s'.cfg = s.cfg := by
  obtain ⟨_, _, _, _, _, _, _, _, _, hcfg, _⟩ := h
  exact hcfg

theorem widthA_eq (h : AgreeBelowLengths s s') : s'.widthA = s.widthA := congrArg (8 * ·) h.lengthA_eq

theorem valA_eq (h : AgreeBelowLengths s s') : s'.valA = s.valA := by
  unfold State.valA
  rw [h.lengthA_eq]
  exact valBE_congr fun _ hi => h.readA_eq hi

theorem valB_eq (h : AgreeBelowLengths s s') : s'.valB = s.valB := by
  unfold State.valB
  rw [h.lengthB_eq]
  exact valBE_congr fun _ hi => h.readB_eq hi

theorem bitAt_eq (h : AgreeBelowLengths s s') {p : Nat} (hp : p < s.widthA) :
    bitAt s'.bufA p = bitAt s.bufA p := by
  have hbyte : p / 8 < s.lengthA := Nat.div_lt_of_lt_mul hp
  unfold bitAt
  rw [h.readA_eq hbyte]

/-- Past its end A supplies zeros to CHUNKS, so every position agrees (R153). -/
theorem bitOrZero_eq (h : AgreeBelowLengths s s') : s'.bitOrZero = s.bitOrZero := by
  funext p
  unfold State.bitOrZero
  rw [h.widthA_eq]
  by_cases hp : p < s.widthA
  · rw [h.bitAt_eq hp]
  · simp [hp]

theorem chunkOfA_eq (h : AgreeBelowLengths s s') (n c : Nat) : s'.chunkOfA n c = s.chunkOfA n c := by
  unfold State.chunkOfA
  rw [h.bitOrZero_eq]

/-- Past its end S supplies zeros to FROMBITS, so every position agrees (R154). -/
theorem streamBit_eq (h : AgreeBelowLengths s s') : s'.streamBit = s.streamBit := by
  funext p
  unfold State.streamBit
  rw [h.lengthS_eq]
  by_cases hp : p < s.lengthS
  · rw [h.readS_eq hp]
  · simp [hp]

/-- Past its end S supplies zeros to FROMCHUNKS, so every position agrees (R155). -/
theorem chunkBit_eq (h : AgreeBelowLengths s s') (n : Nat) : s'.chunkBit n = s.chunkBit n := by
  funext p
  unfold State.chunkBit
  rw [h.lengthS_eq]
  by_cases hp : p < s.lengthS * n
  · have helem : p / n < s.lengthS := Nat.div_lt_of_lt_mul (Nat.mul_comm _ _ ▸ hp)
    rw [h.readS_eq helem]
  · simp [hp]

/-- The partner of a byte of A in a big-endian command lies below LEN_B (R116). -/
theorem partnerBE_eq (h : AgreeBelowLengths s s') {i : Nat} (hi : i < s.lengthA) :
    s'.partnerBE i = s.partnerBE i := by
  unfold State.partnerBE
  rw [h.lengthA_eq, h.lengthB_eq]
  split
  · rw [h.readB_eq (by omega)]
  · rfl

/-- The partner of a byte of A in a little-endian command lies below LEN_B (R117). -/
theorem partnerLE_eq (h : AgreeBelowLengths s s') (i : Nat) : s'.partnerLE i = s.partnerLE i := by
  unfold State.partnerLE
  rw [h.lengthB_eq]
  split
  next hi => rw [h.readB_eq hi]
  next => rfl

/-- A test of every byte below LEN_A has one answer (R111, R112). -/
theorem all_bytesA_eq (h : AgreeBelowLengths s s') (v : Byte) :
    (List.range s'.lengthA).all (fun i => s'.bufA.read i == v) =
      (List.range s.lengthA).all (fun i => s.bufA.read i == v) := by
  rw [h.lengthA_eq]
  rw [Bool.eq_iff_iff, List.all_eq_true, List.all_eq_true]
  refine forall₂_congr fun i hi => ?_
  rw [h.readA_eq (List.mem_range.mp hi)]

/-! ## The effects -/

theorem setFlag (h : AgreeBelowLengths s s') (b : Bool) :
    AgreeBelowLengths { s with flag := b } { s' with flag := b } := by
  obtain ⟨hlenA, hlenB, hlenS, hA, hB, hS, _, hres, hfault, hhost⟩ := h
  exact ⟨hlenA, hlenB, hlenS, hA, hB, hS, rfl, hres, hfault, hhost⟩

theorem setRes (h : AgreeBelowLengths s s') (v : Dword) : AgreeBelowLengths (s.setRes v) (s'.setRes v) := by
  obtain ⟨hlenA, hlenB, hlenS, hA, hB, hS, hflag, _, hfault, hhost⟩ := h
  exact ⟨hlenA, hlenB, hlenS, hA, hB, hS, hflag, rfl, hfault, hhost⟩

theorem enterFault (h : AgreeBelowLengths s s') (c : FaultCode) (i0 i1 : Word) :
    AgreeBelowLengths (s.enterFault c i0 i1) (s'.enterFault c i0 i1) := by
  obtain ⟨hlenA, hlenB, hlenS, hA, hB, hS, hflag, hres, _, hhost⟩ := h
  exact ⟨hlenA, hlenB, hlenS, hA, hB, hS, hflag, hres, ⟨rfl, rfl, rfl, rfl⟩, hhost⟩

/-- Two storages filled alike below `n` agree below any length up to `n`. -/
theorem read_fill_eq {w n L : Nat} (m m' : Memory w) {f f' : Nat → BitVec w} (hL : L ≤ n)
    (hf : ∀ i, i < n → f' i = f i) : ∀ i, i < L → (m'.fill n f').read i = (m.fill n f).read i := by
  intro i hi
  have hn : i < n := by omega
  rw [Memory.read_fill_of_lt _ _ _ _ hn, Memory.read_fill_of_lt _ _ _ _ hn, hf i hn]

theorem storeA (h : AgreeBelowLengths s s') {f f' : Nat → Byte} (hf : ∀ i, i < s.lengthA → f' i = f i) :
    AgreeBelowLengths (s.storeA f) (s'.storeA f') := by
  obtain ⟨hlenA, hlenB, hlenS, _, hB, hS, hflag, hres, hfault, hhost⟩ := h
  refine ⟨hlenA, hlenB, hlenS, ?_, hB, hS, hflag, hres, hfault, hhost⟩
  rw [State.storeA_bufA, State.storeA_bufA, hlenA]
  exact read_fill_eq _ _ le_rfl hf

theorem storeValueA (h : AgreeBelowLengths s s') (v : Nat) :
    AgreeBelowLengths (s.storeValueA v) (s'.storeValueA v) :=
  h.storeA fun i _ => by rw [h.lengthA_eq]

theorem newA (h : AgreeBelowLengths s s') (n : Nat) (f : Nat → Byte) :
    AgreeBelowLengths (s.newA n f) (s'.newA n f) := by
  obtain ⟨_, hlenB, hlenS, _, hB, hS, hflag, hres, hfault, hhost⟩ := h
  exact ⟨rfl, hlenB, hlenS, read_fill_eq _ _ (s.newA_lengthA_le n f) fun _ _ => rfl, hB, hS, hflag, hres, hfault,
    hhost⟩

theorem newS (h : AgreeBelowLengths s s') (n : Nat) {f f' : Nat → Dword} (hf : ∀ j, j < n → f' j = f j) :
    AgreeBelowLengths (s.newS n f) (s'.newS n f') := by
  obtain ⟨hlenA, hlenB, _, hA, hB, _, hflag, hres, hfault, hhost⟩ := h
  exact ⟨hlenA, hlenB, rfl, hA, hB, read_fill_eq _ _ (s.newS_lengthS_le n f) hf, hflag, hres, hfault, hhost⟩

theorem copyAB (h : AgreeBelowLengths s s') :
    AgreeBelowLengths { s with bufB := s.bufB.fill s.lengthA s.bufA.read, lenB := s.lenA }
      { s' with bufB := s'.bufB.fill s'.lengthA s'.bufA.read, lenB := s'.lenA } := by
  rw [h.lengthA_eq]
  obtain ⟨hlenA, _, hlenS, hA, _, hS, hflag, hres, hfault, hhost⟩ := h
  exact ⟨hlenA, hlenA, hlenS, hA, read_fill_eq _ _ le_rfl hA, hS, hflag, hres, hfault, hhost⟩

theorem swapAB (h : AgreeBelowLengths s s') :
    AgreeBelowLengths { s with bufA := s.bufB, bufB := s.bufA, lenA := s.lenB, lenB := s.lenA }
      { s' with bufA := s'.bufB, bufB := s'.bufA, lenA := s'.lenB, lenB := s'.lenA } := by
  obtain ⟨hlenA, hlenB, hlenS, hA, hB, hS, hflag, hres, hfault, hhost⟩ := h
  exact ⟨hlenB, hlenA, hlenS, hB, hA, hS, hflag, hres, hfault, hhost⟩

end AgreeBelowLengths

/-! ## The commands -/

/-- Two outcomes are next states that agree below the lengths. -/
def AgreeingNext (o o' : Host.Outcome State Fault Refusal) : Prop :=
  ∃ t t', o = .next t ∧ o' = .next t' ∧ AgreeBelowLengths t t'

section

variable {s s' : State}

theorem AgreeBelowLengths.complete (h : AgreeBelowLengths s s') (b : Bool) :
    AgreeingNext (complete b s) (complete b s') := ⟨_, _, rfl, rfl, h.setFlag b⟩

theorem AgreeBelowLengths.commandFault (h : AgreeBelowLengths s s') (c : FaultCode) (i : Instr) :
    AgreeingNext (commandFault c i s) (commandFault c i s') := ⟨_, _, rfl, rfl, h.enterFault c _ _⟩

/-- Two commands that take the same branch agree when each branch does. -/
theorem AgreeingNext.ite {c : Prop} [Decidable c] {o o' u u' : Host.Outcome State Fault Refusal}
    (ho : c → AgreeingNext o o') (hu : ¬c → AgreeingNext u u') :
    AgreeingNext (if c then o else u) (if c then o' else u') := by
  split
  next hc => exact ho hc
  next hc => exact hu hc

/-- A command that pairs each byte of A with a big-endian partner agrees (R105 to R107). -/
theorem AgreeBelowLengths.storePairsBE (h : AgreeBelowLengths s s') (g : Byte → Option Byte → Byte) :
    AgreeBelowLengths (s.storeA fun i => g (s.bufA.read i) (s.partnerBE i))
      (s'.storeA fun i => g (s'.bufA.read i) (s'.partnerBE i)) :=
  h.storeA fun _ hi => by rw [h.readA_eq hi, h.partnerBE_eq hi]

/-- A command that pairs each byte of A with a little-endian partner agrees (R108 to R110). -/
theorem AgreeBelowLengths.storePairsLE (h : AgreeBelowLengths s s') (g : Byte → Option Byte → Byte) :
    AgreeBelowLengths (s.storeA fun i => g (s.bufA.read i) (s.partnerLE i))
      (s'.storeA fun i => g (s'.bufA.read i) (s'.partnerLE i)) :=
  h.storeA fun i hi => by rw [h.readA_eq hi, h.partnerLE_eq i]

/-- REV reads A at positions `W-1-j` for `j < W`, all of them below the length (R103). -/
theorem AgreeBelowLengths.storeReversed (h : AgreeBelowLengths s s') :
    AgreeBelowLengths (s.storeA (packByte fun j => bitAt s.bufA (s.widthA - 1 - j)))
      (s'.storeA (packByte fun j => bitAt s'.bufA (s'.widthA - 1 - j))) := by
  refine h.storeA fun i hi => congrArg (BitVec.ofNat 8) (packMsb_congr fun t _ => ?_)
  have hpos : s.widthA - 1 - (8 * i + t) < s.widthA := by
    unfold State.widthA
    omega
  simp only [h.widthA_eq, h.bitAt_eq hpos]

/-- Every command takes agreeing states to agreeing states. -/
theorem exec_agrees (i : Instr) (h : AgreeBelowLengths s s') : AgreeingNext (exec i s) (exec i s') := by
  cases i with
  | shl n =>
    simp only [exec, execShl, h.valA_eq, h.widthA_eq]
    exact (h.storeValueA _).complete _
  | shr n =>
    simp only [exec, execShr, h.valA_eq, h.widthA_eq]
    exact (h.storeValueA _).complete _
  | rev => exact h.storeReversed.complete _
  | not => exact (h.storeA fun i hi => congrArg (· ^^^ 0xFF#8) (h.readA_eq hi)).complete _
  | beand => exact (h.storePairsBE andPartner).complete _
  | beor =>
    simp only [exec, execBeor, h.lengthA_eq, h.lengthB_eq]
    exact .ite (fun _ => h.commandFault _ _) fun _ => (h.storePairsBE orPartner).complete _
  | bexor => exact (h.storePairsBE xorPartner).complete _
  | leand => exact (h.storePairsLE andPartner).complete _
  | leor => exact (h.storePairsLE orPartner).complete _
  | lexor => exact (h.storePairsLE xorPartner).complete _
  | allz =>
    simp only [exec, execAllz, h.all_bytesA_eq]
    exact h.complete _
  | allo =>
    simp only [exec, execAllo, h.all_bytesA_eq]
    exact h.complete _
  | lzc =>
    simp only [exec, execLzc, h.valA_eq, h.widthA_eq]
    exact (h.setRes _).complete _
  | tzc =>
    simp only [exec, execTzc, h.valA_eq, h.widthA_eq]
    exact (h.setRes _).complete _
  | bits =>
    simp only [exec, execBits, h.widthA_eq]
    exact (h.newS _ fun j hj => by rw [h.bitAt_eq hj]).complete _
  | bitget k =>
    simp only [exec, execBitget, h.widthA_eq]
    refine .ite (fun _ => h.commandFault _ _) fun hk => ?_
    rw [h.bitAt_eq (Nat.lt_of_not_le hk)]
    exact h.complete _
  | chunks n ct =>
    simp only [exec, execChunks, h.widthA_eq, h.cfg_eq, h.chunkOfA_eq]
    exact .ite (fun _ => h.commandFault _ _) fun _ => (h.newS _ fun _ _ => rfl).complete _
  | frombits =>
    simp only [exec, execFrombits, h.lengthS_eq, h.streamBit_eq]
    exact (h.newA _ _).complete _
  | fromchunks n =>
    simp only [exec, execFromchunks, h.lengthS_eq, h.cfg_eq, h.chunkBit_eq]
    exact .ite (fun _ => h.commandFault _ _) fun _ =>
      .ite (fun _ => h.commandFault _ _) fun _ => (h.newA _ _).complete _
  | cmp =>
    simp only [exec, execCmp, h.valA_eq, h.valB_eq]
    exact (h.setRes _).complete _
  | add =>
    simp only [exec, execAdd, h.valA_eq, h.valB_eq, h.widthA_eq]
    exact (h.storeValueA _).complete _
  | sub =>
    simp only [exec, execSub, h.valA_eq, h.valB_eq, h.widthA_eq]
    exact (h.storeValueA _).complete _
  | mul =>
    simp only [exec, execMul, h.valA_eq, h.valB_eq, h.widthA_eq, h.lengthB_eq]
    exact (h.storeValueA _).complete _
  | div =>
    simp only [exec, execDiv, h.valA_eq, h.valB_eq]
    exact .ite (fun _ => h.complete _) fun _ => (h.storeValueA _).complete _
  | rem =>
    simp only [exec, execRem, h.valA_eq, h.valB_eq]
    exact .ite (fun _ => h.complete _) fun _ => (h.storeValueA _).complete _
  | movab => exact h.copyAB.complete _
  | swap => exact h.swapAB.complete _

end

/-- Settles O42: agreement below the lengths is kept by every command. -/
theorem beyondLengthsNeverRead : Obligations.BeyondLengthsNeverRead := fun i _ _ h => exec_agrees i h

end Sys2Proof.Machine

/-! Single host accesses (R50 to R58, R62, R63, R235): where the window map gives a slot, which accesses are
performed, and what one read, one write and one change of RST do to a normal or a faulted engine. -/

namespace Sys2Proof.Machine

/-! ## The window map -/

/-- A register stands at the offset that the map finds it at (R51). -/
theorem registerAt_offset {off : Nat} {r : Slot} (h : registerAt off = some r) : r.offset = off := by
  unfold registerAt at h
  split at h
  case h_12 => cases h
  all_goals
    obtain rfl := Option.some.inj h
    rfl

/-- The registers are the eleven words from offset 0 on (R51). -/
theorem registerAt_isSome_iff (off : Nat) : (registerAt off).isSome = true ↔ off % 4 = 0 ∧ off < 0x0002C := by
  constructor
  · intro h
    unfold registerAt at h
    split at h
    case h_12 => cases h
    all_goals decide
  · rintro ⟨halign, hlt⟩
    have hwords : ∀ k, k < 11 → (registerAt (4 * k)).isSome = true := by decide
    obtain ⟨k, rfl⟩ := Nat.dvd_of_mod_eq_zero halign
    exact hwords k (by omega)

theorem Slot.eq_of_mapped {p : Params} {r r' : Slot} (h : Slot.mapped p r = some r') : r = r' := by
  unfold Slot.mapped at h
  split at h
  · exact Option.some.inj h
  · cases h

@[simp] theorem Slot.mapped_isSome (p : Params) (r : Slot) : (Slot.mapped p r).isSome = r.exists p := by
  unfold Slot.mapped
  split
  next hr => exact hr.symm
  next hr => exact (Bool.eq_false_of_not_eq_true hr).symm

/-- A slot that the map gives at a multiple of 4 stands there (R51). -/
theorem offset_of_slotAt {p : Params} {off : Nat} {r : Slot} (halign : off % 4 = 0)
    (h : slotAt p off = some r) : r.offset = off := by
  unfold slotAt at h
  split_ifs at h with hreg hA hB hlo
  · exact registerAt_offset h
  all_goals
    obtain rfl := Slot.eq_of_mapped h
    simp only [Slot.offset]
    omega

/-- Settles O46: the map finds an existing slot at its offset, and what it finds is an existing slot there. -/
theorem windowMapIsExact : Obligations.WindowMapIsExact := by
  intro p off r hp _ halign
  constructor
  · exact fun h => ⟨offset_of_slotAt halign h, slotAt_exists h⟩
  · rintro ⟨rfl, hr⟩
    exact slotAt_offset hp hr

/-- At a multiple of 4 the map has a slot exactly at the offsets R51 lists. -/
theorem slotAt_isSome_iff {p : Params} {off : Nat} (hp : p.legal = true) (halign : off % 4 = 0) :
    (slotAt p off).isSome = true ↔ mappedOffset p off = true := by
  have hcap := (Params.legal_iff p).mp hp
  have hmaxs : p.maxs = 8 * p.maxlen := rfl
  simp only [mappedOffset, Bool.or_eq_true, Bool.and_eq_true, decide_eq_true_eq]
  unfold slotAt
  split_ifs with hreg hA hB hlo
  · rw [registerAt_isSome_iff]
    omega
  all_goals
    simp only [Slot.mapped_isSome, Slot.exists, decide_eq_true_eq]
    omega

/-! ## Which accesses are performed -/

/-- An aligned 32-bit access of the one host at a mapped offset reaches a slot, with RST released (R51, R56). -/
theorem locate_mapped {s : State} {off : Nat} (hrst : s.rst = false) (hp : s.cfg.legal = true)
    (hoff : off < windowBytes) (halign : off % 4 = 0) (hmap : mappedOffset s.cfg off = true) :
    ∃ r, locate s 0 (s.cfg.base + off) 4 = .next r := by
  obtain ⟨r, hr⟩ := Option.isSome_iff_exists.mp ((slotAt_isSome_iff hp halign).mpr hmap)
  refine ⟨r, locate_next_iff.mpr ?_⟩
  rw [Nat.add_sub_cancel_left]
  exact ⟨hrst, rfl, Nat.le_add_right _ _, Nat.add_lt_add_left hoff _, rfl, halign, hr⟩

/-- Any other access of the one host inside the window is refused, for its width, its alignment or its offset
(R56). -/
theorem locate_refused {s : State} {off size : Nat} (hrst : s.rst = false) (hp : s.cfg.legal = true)
    (hoff : off < windowBytes) (hbad : ¬(size = 4 ∧ off % 4 = 0 ∧ mappedOffset s.cfg off = true)) :
    ∃ f, locate s 0 (s.cfg.base + off) size = .refused f := by
  have hinside : ¬(s.cfg.base + off < s.cfg.base ∨ s.cfg.base + windowBytes ≤ s.cfg.base + off) := by omega
  unfold locate
  rw [if_neg (ne_true_of_eq_false hrst), if_neg (by decide), if_neg hinside, Nat.add_sub_cancel_left]
  split_ifs with hsize halign
  · exact ⟨.badWidth, rfl⟩
  · exact ⟨.misaligned, rfl⟩
  · have hnone : slotAt s.cfg off = none := by
      rw [← Option.not_isSome_iff_eq_none, slotAt_isSome_iff hp (not_not.mp halign)]
      exact fun hmap => hbad ⟨not_not.mp hsize, not_not.mp halign, hmap⟩
    rw [hnone]
    exact ⟨.unmappedOffset, rfl⟩

/-- Executing any word answers a next state: a command completes or faults, and an illegal word faults (R80, R87). -/
theorem executeWord_next (w : Word) (s : State) : ∃ t, executeWord w s = .next t := by
  unfold executeWord
  split
  next i _ =>
    obtain ⟨t, ht, _⟩ := exec_rowEffect i s
    exact ⟨t, ht⟩
  next => exact ⟨_, rfl⟩

/-- A write of a length register answers a next state within and above the capacity (R55). -/
theorem writeLength_next (cap : Nat) (r : Slot) (w : Word) (s s' : State) :
    ∃ t, writeLength cap r w s s' = .next t := by
  unfold writeLength
  split <;> exact ⟨_, rfl⟩

/-- A host write of any slot is performed. -/
theorem hostWrite_next (s : State) (r : Slot) (w : Word) : ∃ t, hostWrite s r w = .next t := by
  unfold hostWrite
  split
  · exact ⟨s, rfl⟩
  · cases r with
    | cmd => exact executeWord_next w s
    | lenA | lenB | lenS => exact writeLength_next _ _ _ _ _
    | id | status | resLo | resHi | finfo0 | finfo1 | cap | byteA | byteB | elemLo | elemHi => exact ⟨_, rfl⟩

/-- A read and a write both look for their slot and are performed once they have it. -/
theorem perform_access {e : HostEvent} {master addr size : Nat}
    (he : e = .read master addr size ∨ ∃ w, e = .write master addr size w) (s : State) :
    ∃ k : Slot → Host.Outcome State Fault Refusal,
      perform e s = atSlot (locate s master addr size) k ∧ ∀ r, ∃ t, k r = .next t := by
  rcases he with rfl | ⟨w, rfl⟩
  · exact ⟨hostRead s, rfl, fun _ => ⟨_, rfl⟩⟩
  · exact ⟨fun r => hostWrite s r w, rfl, fun r => hostWrite_next s r w⟩

/-- Settles O53: an access inside the window either reaches a slot, where it is performed, or is refused. -/
theorem accessesWithoutMeaningAreRefused : Obligations.AccessesWithoutMeaningAreRefused := by
  intro s e off size rest he hq hrst hp hoff
  obtain ⟨k, hk, hnext⟩ := perform_access he (s.withPending rest)
  have hstep := (step_of_pending hq).trans hk
  constructor
  · rintro ⟨rfl, halign, hmap⟩
    obtain ⟨r, hr⟩ := locate_mapped (s := s.withPending rest) hrst hp hoff halign hmap
    obtain ⟨t, ht⟩ := hnext r
    exact ⟨t, hstep.trans (atSlot_next_iff.mpr ⟨r, hr, ht⟩)⟩
  · intro hbad
    obtain ⟨f, hf⟩ := locate_refused (s := s.withPending rest) hrst hp hoff hbad
    exact ⟨f, hstep.trans (congrArg (atSlot · k) hf)⟩

/-! ## One read, one write -/

/-- Settles O47: the read reaches its slot, and the word read does not depend on the events still pending. -/
theorem readsHaveNoSideEffect : Obligations.ReadsHaveNoSideEffect := by
  rintro s r rest ⟨hrst, hp, hr, hq⟩
  have hloc : locate (s.withPending rest) 0 (s.cfg.base + r.offset) 4 = .next r :=
    locate_slot (s := s.withPending rest) hrst hp hr
  rw [step_of_pending hq]
  exact congrArg (atSlot · (hostRead (s.withPending rest))) hloc

/-- A write of a mapped word reaches the slot on the state without the event. -/
theorem WriteNext.step_hostWrite {s : State} {r : Slot} {w : Word} {rest : List HostEvent} (h : WriteNext s r w rest) :
    step s = hostWrite { s with pending := rest } r w := by
  obtain ⟨hrst, hp, hr, hq⟩ := h
  exact step_write hrst hp hr hq

theorem hostWrite_of_fault (s : State) (r : Slot) (w : Word) (hf : s.fault = true) :
    hostWrite s r w = .next s := if_pos hf

theorem hostWrite_of_normal (s : State) (r : Slot) (w : Word) (hf : s.fault = false) :
    hostWrite s r w = writeSlot s r w := if_neg (ne_true_of_eq_false hf)

/-- Outside the faulted state a write of a mapped word is the write of its slot. -/
theorem WriteNext.step_normal {s : State} {r : Slot} {w : Word} {rest : List HostEvent}
    (h : WriteNext s r w rest) (hf : s.fault = false) :
    step s = writeSlot { s with pending := rest } r w := h.step_hostWrite.trans (hostWrite_of_normal _ r w hf)

/-- A write of a read-only register has no effect, in the normal and in the faulted state (R57, R58). -/
theorem hostWrite_readOnly {r : Slot} (hr : r ∈ [Slot.id, .status, .resLo, .resHi, .finfo0, .finfo1, .cap])
    (s : State) (w : Word) : hostWrite s r w = .next s := by
  have hslot : writeSlot s r w = .next s := by
    simp only [List.mem_cons, List.not_mem_nil, or_false] at hr
    rcases hr with rfl | rfl | rfl | rfl | rfl | rfl | rfl <;> rfl
  unfold hostWrite
  rw [hslot, ite_self]

/-- Settles O49: the write reaches a read-only slot, and CMD reads 0. -/
theorem readOnlyWritesIgnored : Obligations.ReadOnlyWritesIgnored :=
  ⟨fun _ _ w _ hr h => h.step_hostWrite.trans (hostWrite_readOnly hr _ w),
    fun s rest h => readsHaveNoSideEffect s .cmd rest h⟩

/-! ## The faulted state -/

/-- A change of RST clears the fault only as the release of an asserted RST (R260). -/
theorem State.driveRst_clears {s : State} {level : Bool} (hf : s.fault = true)
    (h : (s.driveRst level).fault = false) : s.rst = true ∧ level = false := by
  unfold State.driveRst at h
  split at h
  next hrelease => simpa using hrelease
  next => simp [hf] at h

/-- Of the events a faulted engine performs, only the release of an asserted RST clears the fault (R236). -/
theorem perform_clears {e : HostEvent} {s t : State} (hf : s.fault = true) (h : perform e s = .next t)
    (hclear : t.fault = false) : s.rst = true ∧ e = .rst false := by
  rcases perform_next_cases h with ⟨r, rfl⟩ | ⟨r, w, _, hw, _⟩ | ⟨level, rfl, rfl⟩
  · simp [hf] at hclear
  · obtain rfl := Host.Outcome.next.inj ((hostWrite_of_fault s r w hf).symm.trans hw)
    simp [hf] at hclear
  · obtain ⟨hrst, rfl⟩ := State.driveRst_clears hf hclear
    exact ⟨hrst, rfl⟩

/-- Settles O44: a faulted engine answers reads and ignores writes, and a step that leaves the faulted state
performs the release of RST. -/
theorem faultedStateIsFrozen : Obligations.FaultedStateIsFrozen := by
  intro s hf
  refine ⟨fun r w _ h => h.step_hostWrite.trans (hostWrite_of_fault _ r w hf), readsHaveNoSideEffect s,
    fun t ht hclear => ?_⟩
  rcases step_eq s with ⟨_, hidle⟩ | ⟨e, rest, hq, hstep⟩
  · obtain rfl := Host.Outcome.next.inj (hidle.symm.trans ht)
    simp [hf] at hclear
  · obtain ⟨hrst, rfl⟩ := perform_clears (s := s.withPending rest) hf (hstep.symm.trans ht) hclear
    exact ⟨hrst, rest, hq⟩

/-! ## Fault entry, commands and lengths -/

/-- Fault entry records the fault and keeps everything else (R233). -/
theorem faultEntered_enterFault (s : State) (c : FaultCode) (i0 i1 : Word) :
    FaultEntered c.code i0 i1 s (s.enterFault c i0 i1) :=
  ⟨rfl, rfl, rfl, rfl, ⟨rfl, fun _ => rfl⟩, SameB.refl s, SameS.refl s, rfl, rfl, SameHost.refl s⟩

theorem executeWord_of_decode_ok {w : Word} {i : Instr} (h : decode w = .ok i) (s : State) :
    executeWord w s = exec i s := by
  unfold executeWord
  rw [h]

theorem executeWord_of_decode_error {w : Word} {e : Illegal} (h : decode w = .error e) (s : State) :
    executeWord w s = .next (s.enterFault .illegalCmd w 0x00004#32) := by
  unfold executeWord
  rw [h]
  rfl

/-- CMD is mapped whatever the parameters are, so its write executes the word in every normal state (R51, R80). -/
theorem step_cmdWrite {s : State} {w : Word} {rest : List HostEvent} (hrst : s.rst = false)
    (hf : s.fault = false) (hq : s.pending = cmdWrite s.cfg w :: rest) :
    step s = executeWord w { s with pending := rest } := by
  have hloc : locate (s.withPending rest) 0 (s.cfg.base + cmdOffset) 4 = .next .cmd := by
    rw [locate_next_iff, State.withPending_cfg, Nat.add_sub_cancel_left]
    exact ⟨hrst, rfl, Nat.le_add_right _ _, Nat.add_lt_add_left (by decide) _, rfl, rfl, rfl⟩
  rw [step_of_pending hq]
  calc atSlot (locate (s.withPending rest) 0 (s.cfg.base + cmdOffset) 4) (hostWrite (s.withPending rest) · w)
    _ = hostWrite (s.withPending rest) .cmd w := congrArg (atSlot · _) hloc
    _ = executeWord w (s.withPending rest) := hostWrite_of_normal _ .cmd w hf

/-- Settles O6: the write of CMD executes its word, which decodes to a command or is illegal. -/
theorem stepRunsDecodedCommand : Obligations.StepRunsDecodedCommand := by
  constructor
  · intro s w i rest hrst hf hq hdec
    exact (step_cmdWrite hrst hf hq).trans (executeWord_of_decode_ok hdec _)
  · intro s w e rest hrst hf hq hdec
    exact ⟨_, (step_cmdWrite hrst hf hq).trans (executeWord_of_decode_error hdec _),
      faultEntered_enterFault _ .illegalCmd w _⟩

theorem Params.maxlen_le_maxs (p : Params) : p.maxlen ≤ p.maxs := Nat.le_mul_of_pos_left _ (by decide)

/-- On a legal machine every capacity fits in a length register (R6, R26). -/
theorem Params.maxs_lt {p : Params} (hp : p.legal = true) : p.maxs < 65536 := by
  have hcap := (Params.legal_iff p).mp hp
  unfold Params.maxs
  omega

/-- A write of a length register whose slot sets the length by `set` and has the capacity `cap` (R55): both
branches of the comparison with the capacity. -/
theorem WriteNext.step_length {s : State} {r : Slot} {w : Word} {rest : List HostEvent} {cap : Nat}
    (set : BitVec 16 → State) (h : WriteNext s r w rest) (hf : s.fault = false) (hcap : cap ≤ s.cfg.maxs)
    (hslot : writeSlot { s with pending := rest } r w =
      writeLength cap r w { s with pending := rest } (set (w.truncate 16))) :
    (w.toNat ≤ cap → ∃ v : BitVec 16, v.toNat = w.toNat ∧ step s = .next (set v)) ∧
      (cap < w.toNat → ∃ t, step s = .next t ∧
        FaultEntered 6#4 w (BitVec.ofNat 32 r.offset) { s with pending := rest } t) := by
  have hstep := (h.step_normal hf).trans hslot
  obtain ⟨_, hp, _⟩ := h
  have hmaxs := Params.maxs_lt hp
  constructor
  · intro hle
    have hfits : (w.truncate 16).toNat = w.toNat :=
      (BitVec.toNat_setWidth 16 w).trans (Nat.mod_eq_of_lt (by omega))
    exact ⟨w.truncate 16, hfits, hstep.trans (if_pos hle)⟩
  · intro hlt
    exact ⟨_, hstep.trans (if_neg (Nat.not_le.mpr hlt)), faultEntered_enterFault _ .lenRange w _⟩

/-- Settles O50: LEN_A and LEN_B have the capacity MAXLEN, LEN_S has MAXS. -/
theorem lengthWrites : Obligations.LengthWrites := by
  intro s w rest hf
  have hcap := Params.maxlen_le_maxs s.cfg
  refine ⟨fun h => ?_, fun h => ?_, fun h => ?_⟩
  · exact h.step_length (fun v => { s with pending := rest, lenA := v }) hf hcap rfl
  · exact h.step_length (fun v => { s with pending := rest, lenB := v }) hf hcap rfl
  · exact h.step_length (fun v => { s with pending := rest, lenS := v }) hf le_rfl rfl

/-! ## The windows of A, B and S -/

/-- A write of one position sets it alone; the value is given as a number. -/
theorem Memory.write_sets_only {n : Nat} (m : Memory n) (i : Nat) {v : BitVec n} {x : Nat} (hv : v.toNat = x) :
    ((m.write i v).read i).toNat = x ∧ ∀ k, k ≠ i → (m.write i v).read k = m.read k :=
  ⟨(congrArg BitVec.toNat (m.read_write_self i v)).trans hv, m.read_write_other i v⟩

/-- A byte read through its window is extended by zeros (R52, R53). -/
theorem toNat_zeroExtend_byte (v : Byte) : (v.zeroExtend 32).toNat = v.toNat :=
  BitVec.toNat_setWidth_of_le (by decide)

/-- Settles O51: a write stores `w[7:0]` at its position, and a read extends the byte. -/
theorem byteWindows : Obligations.ByteWindows := by
  intro s i w rest hf
  have hlow : (w.truncate 8).toNat = w.toNat % 256 := BitVec.toNat_setWidth 8 w
  refine ⟨fun h => ?_, fun h => ?_, fun h => ?_, fun h => ?_⟩
  · exact ⟨_, h.step_normal hf, s.bufA.write_sets_only i hlow⟩
  · exact ⟨_, h.step_normal hf, s.bufB.write_sets_only i hlow⟩
  · exact ⟨_, toNat_zeroExtend_byte _, readsHaveNoSideEffect s _ rest h⟩
  · exact ⟨_, toNat_zeroExtend_byte _, readsHaveNoSideEffect s _ rest h⟩

/-- The low half of an element as a number. -/
theorem toNat_lowHalf (x : Dword) : (x.extractLsb' 0 32).toNat = x.toNat % 2 ^ 32 := by simp

/-- The high half of an element as a number. -/
theorem toNat_highHalf (x : Dword) : (x.extractLsb' 32 32).toNat = x.toNat / 2 ^ 32 := by
  have hx := x.isLt
  rw [BitVec.extractLsb'_toNat, Nat.shiftRight_eq_div_pow]
  omega

/-- Settles O52: a write joins the word with the half that is kept, and a read cuts a half out. -/
theorem streamWindows : Obligations.StreamWindows := by
  intro s j w rest hf
  have hlo : ((s.bufS.read j).extractLsb' 32 32 ++ w).toNat =
      (s.bufS.read j).toNat / 2 ^ 32 * 2 ^ 32 + w.toNat := by
    rw [toNat_append_eq_add, toNat_highHalf]
  have hhi : (w ++ (s.bufS.read j).extractLsb' 0 32).toNat =
      w.toNat * 2 ^ 32 + (s.bufS.read j).toNat % 2 ^ 32 := by
    rw [toNat_append_eq_add, toNat_lowHalf]
  refine ⟨fun h => ?_, fun h => ?_, fun h => ?_, fun h => ?_⟩
  · exact ⟨_, h.step_normal hf, s.bufS.write_sets_only j hlo⟩
  · exact ⟨_, h.step_normal hf, s.bufS.write_sets_only j hhi⟩
  · exact ⟨_, toNat_lowHalf _, readsHaveNoSideEffect s _ rest h⟩
  · exact ⟨_, toNat_highHalf _, readsHaveNoSideEffect s _ rest h⟩

end Sys2Proof.Machine

/-! The decoder row by row (R82 to R90): a word whose OP is a row's opcode is read by the row's format, so what decodes,
to which command and from which word are facts about the three formats and not about the 27 rows. -/

namespace Sys2Proof

/-! ## Rows and formats -/

/-- The chunk storage type that `CT`, bits 9:8, selects (R84). -/
def ctField (w : Word) : ChunkType := chunkTypeOfCode (subField w % 4)

/-- The command of a row with the operands its format has; the others are not used (R86). -/
def Mnemonic.command (m : Mnemonic) (n : Nat) (ct : ChunkType) : Instr :=
  match m with
  | .shl => .shl n
  | .shr => .shr n
  | .rev => .rev
  | .not => .not
  | .beand => .beand
  | .beor => .beor
  | .bexor => .bexor
  | .leand => .leand
  | .leor => .leor
  | .lexor => .lexor
  | .allz => .allz
  | .allo => .allo
  | .lzc => .lzc
  | .tzc => .tzc
  | .bits => .bits
  | .bitget => .bitget n
  | .chunks => .chunks n ct
  | .frombits => .frombits
  | .fromchunks => .fromchunks n
  | .cmp => .cmp
  | .add => .add
  | .sub => .sub
  | .mul => .mul
  | .div => .div
  | .rem => .rem
  | .movab => .movab
  | .swap => .swap

/-- The fields a format reserves are zero in the word (R82, R83, R84). -/
def Format.ReservedZero (w : Word) : Format → Prop
  | .f0 => immField w = 0 ∧ subField w = 0
  | .fi => subField w = 0
  | .fc => subField w / 4 = 0

/-- A word read by a format, given the command its operands select. -/
def Format.read (w : Word) (i : Nat → ChunkType → Instr) : Format → Except Illegal Instr
  | .f0 => decodeF0 w (i (immField w) (ctField w))
  | .fi => decodeFI w (i · (ctField w))
  | .fc => decodeFC w i

/-- The word of a format with the given operands and opcode. -/
def Format.word (n : Nat) (ct : ChunkType) (op : Nat) : Format → Word
  | .f0 => fieldsWord 0 0 op
  | .fi => fieldsWord n 0 op
  | .fc => fieldsWord n ct.code op

theorem Format.read_ok_iff (f : Format) (w : Word) (i : Nat → ChunkType → Instr) (j : Instr) :
    f.read w i = .ok j ↔ j = i (immField w) (ctField w) ∧ f.ReservedZero w := by
  cases f with
  | f0 => exact decodeF0_ok_iff w _ j
  | fi => exact decodeFI_ok_iff w (i · (ctField w)) j
  | fc => exact decodeFC_ok_iff w i j

@[simp] theorem Mnemonic.command_mnemonic (m : Mnemonic) (n : Nat) (ct : ChunkType) :
    (m.command n ct).mnemonic = m := by cases m <;> rfl

/-- An operand that fits its field makes a well-formed command (R85, R90). -/
theorem Mnemonic.command_wf (m : Mnemonic) {n : Nat} (hn : n < 65536) (ct : ChunkType) :
    (m.command n ct).wf = true := by
  cases m with
  | shl | shr | bitget | chunks | fromchunks => exact decide_eq_true hn
  | _ => rfl

/-- The fields of a row's word: the operands the format has, and zero in the fields it reserves (R82, R83, R84). -/
theorem Mnemonic.encode_command (m : Mnemonic) (n : Nat) (ct : ChunkType) :
    encode (m.command n ct) = m.format.word n ct m.op := by cases m <;> rfl

/-! ## What decodes, and to what -/

/-- A word with the opcode of a row is read by the row's format (R89). -/
theorem decode_of_op {w : Word} {m : Mnemonic} (h : opField w = m.op) :
    decode w = m.format.read w m.command := by
  unfold decode
  rw [h]
  cases m <;> rfl

/-- A word that decodes has the opcode of its command's row: the arms of `decode` by format (FI: SHL, SHR, BITGET,
FROMCHUNKS; FC: CHUNKS), then the rejected opcodes, then the arms of F0. -/
theorem op_of_decode_ok {w : Word} {i : Instr} (h : decode w = .ok i) : opField w = i.mnemonic.op := by
  unfold decode at h
  split at h
  case h_1 hop | h_2 hop | h_16 hop | h_19 hop =>
    obtain ⟨rfl, _⟩ := (decodeFI_ok_iff w _ i).mp h
    exact hop
  case h_17 hop =>
    obtain ⟨rfl, _⟩ := (decodeFC_ok_iff w _ i).mp h
    exact hop
  case h_28 => cases h
  all_goals
    next hop =>
      obtain ⟨rfl, _⟩ := (decodeF0_ok_iff w _ i).mp h
      exact hop

/-- A word decodes to a command exactly when it has the opcode of the command's row, zero reserved fields and
the command's operands. -/
theorem decode_ok_iff {w : Word} {i : Instr} :
    decode w = .ok i ↔ opField w = i.mnemonic.op ∧
      i = i.mnemonic.command (immField w) (ctField w) ∧ i.mnemonic.format.ReservedZero w := by
  constructor
  · intro h
    have hop := op_of_decode_ok h
    exact ⟨hop, (Format.read_ok_iff ..).mp ((decode_of_op hop).symm.trans h)⟩
  · rintro ⟨hop, h⟩
    exact (decode_of_op hop).trans ((Format.read_ok_iff ..).mpr h)

/-- A word decodes to a command of a row exactly when it has the row's opcode and zero reserved fields (R89). -/
theorem decodes_to_row_iff (w : Word) (m : Mnemonic) :
    (∃ i, decode w = .ok i ∧ i.mnemonic = m) ↔ opField w = m.op ∧ m.format.ReservedZero w := by
  constructor
  · rintro ⟨i, h, rfl⟩
    obtain ⟨hop, _, hzero⟩ := decode_ok_iff.mp h
    exact ⟨hop, hzero⟩
  · rintro ⟨hop, hzero⟩
    exact ⟨_, (decode_of_op hop).trans ((Format.read_ok_iff ..).mpr ⟨rfl, hzero⟩), m.command_mnemonic _ _⟩

/-! ## Decoding and encoding -/

theorem immField_lt (w : Word) : immField w < 65536 := (w.extractLsb' 16 16).isLt

theorem subField_lt (w : Word) : subField w < 256 := (w.extractLsb' 8 8).isLt

theorem opField_lt (w : Word) : opField w < 256 := (w.extractLsb' 0 8).isLt

/-- The field `OP` of every command's word is the opcode of its row (R81, R86). -/
theorem opField_encode (i : Instr) : opField (encode i) = i.mnemonic.op := by
  cases i <;> exact opField_fieldsWord (Mnemonic.op_lt _)

/-- The other fields of a well-formed command's word are its operands, and zero where its format reserves them. -/
theorem operands_encode {i : Instr} (h : i.wf = true) :
    i = i.mnemonic.command (immField (encode i)) (ctField (encode i)) ∧
      i.mnemonic.format.ReservedZero (encode i) := by
  cases i with
  | shl n | shr n | bitget n | fromchunks n =>
    have hn : n < 65536 := of_decide_eq_true h
    simp [Instr.mnemonic, Mnemonic.command, Mnemonic.format, Format.ReservedZero, encode, Mnemonic.op_lt, hn]
  | chunks n ct =>
    have hn : n < 65536 := of_decide_eq_true h
    have hct := ct.code_lt
    have hsub : subField (encode (.chunks n ct)) = ct.code := subField_fieldsWord (by omega) (Mnemonic.op_lt _)
    have himm : immField (encode (.chunks n ct)) = n := immField_fieldsWord hn (by omega) (Mnemonic.op_lt _)
    constructor
    · rw [himm, ctField, hsub, Nat.mod_eq_of_lt hct, chunkTypeOfCode_code]
      rfl
    · show subField _ / 4 = 0
      rw [hsub, Nat.div_eq_of_lt hct]
  | _ => exact ⟨rfl, rfl, rfl⟩

/-- Settles O1: the word of a command has the opcode of its row, its operands and zero reserved fields. -/
theorem decodeOfEncode : Obligations.DecodeOfEncode := fun i h =>
  decode_ok_iff.mpr ⟨opField_encode i, operands_encode h⟩

theorem code_ctField (w : Word) : (ctField w).code = subField w % 4 :=
  code_chunkTypeOfCode (Nat.mod_lt _ (by decide))

/-- A word whose reserved fields are zero is its operands in its format. -/
theorem Format.word_fields {f : Format} {w : Word} (h : f.ReservedZero w) :
    f.word (immField w) (ctField w) (opField w) = w := by
  refine Eq.trans ?_ (fieldsWord_fields w)
  cases f with
  | f0 =>
    obtain ⟨himm, hsub⟩ : immField w = 0 ∧ subField w = 0 := h
    rw [himm, hsub]
    rfl
  | fi =>
    have hsub : subField w = 0 := h
    rw [hsub]
    rfl
  | fc =>
    have hsub : subField w / 4 = 0 := h
    have hcode : (ctField w).code = subField w := by rw [code_ctField]; omega
    rw [← hcode]
    rfl

/-- Settles O2: the fields of a legal word are the opcode of the row and the operands of the command. -/
theorem encodeOfDecode : Obligations.EncodeOfDecode := by
  intro w i h
  obtain ⟨hop, hi, hzero⟩ := decode_ok_iff.mp h
  rw [hi]
  refine ⟨Mnemonic.command_wf _ (immField_lt w) _, ?_⟩
  rw [Mnemonic.encode_command, ← hop, Format.word_fields hzero]

/-- Settles O5: each of the words is the encoding of its command. -/
theorem specWordsDecode : Obligations.SpecWordsDecode :=
  ⟨decodeOfEncode (.shl 4) rfl, decodeOfEncode .rev rfl, decodeOfEncode (.chunks 11 .u16) rfl,
    decodeOfEncode (.fromchunks 6) rfl, decodeOfEncode .div rfl, decodeOfEncode .swap rfl⟩

/-! ## Masks -/

/-- Two words are equal exactly when their fields are (R81). -/
theorem word_eq_iff_fields {w v : Word} :
    w = v ↔ immField w = immField v ∧ subField w = subField v ∧ opField w = opField v := by
  constructor
  · rintro rfl
    exact ⟨rfl, rfl, rfl⟩
  · rintro ⟨himm, hsub, hop⟩
    rw [← fieldsWord_fields w, himm, hsub, hop, fieldsWord_fields]

/-- Each field of a masked word is the field masked. -/
theorem fields_and (w v : Word) :
    immField (w &&& v) = immField w &&& immField v ∧ subField (w &&& v) = subField w &&& subField v ∧
      opField (w &&& v) = opField w &&& opField v := by
  simp only [immField, subField, opField, BitVec.extractLsb'_and, BitVec.toNat_and, and_self]

/-- The bits 7:2 of `SUB` are the bits the mask 0xFC keeps (R84). -/
theorem and_0xFC_eq_zero_iff {x : Nat} (h : x < 256) : x &&& 0xFC = 0 ↔ x / 4 = 0 := by
  have hhigh : (x &&& 0xFC) / 2 ^ 2 = x / 2 ^ 2 &&& 0xFC / 2 ^ 2 := Nat.and_div_two_pow ..
  have hlow : (x &&& 0xFC) % 2 ^ 2 = x % 2 ^ 2 &&& 0xFC % 2 ^ 2 := Nat.and_mod_two_pow
  have hkeep : x / 2 ^ 2 &&& 0xFC / 2 ^ 2 = x / 2 ^ 2 :=
    Nat.and_two_pow_sub_one_of_lt_two_pow (n := 6) (by omega)
  rw [hkeep] at hhigh
  simp only [Nat.reducePow, Nat.reduceMod, Nat.and_zero] at hlow hhigh
  omega

theorem and_0xFF {x : Nat} (h : x < 256) : x &&& 0xFF = x := Nat.and_two_pow_sub_one_of_lt_two_pow (n := 8) h

theorem and_0xFFFF {x : Nat} (h : x < 65536) : x &&& 0xFFFF = x :=
  Nat.and_two_pow_sub_one_of_lt_two_pow (n := 16) h

/-- The match of a row is its opcode with the other fields zero. -/
theorem Mnemonic.pattern_fields (m : Mnemonic) :
    immField m.pattern = 0 ∧ subField m.pattern = 0 ∧ opField m.pattern = m.op := by
  cases m <;> exact ⟨rfl, rfl, rfl⟩

/-- The mask of a row keeps `OP` and the bits its format reserves. -/
theorem Mnemonic.and_mask_eq_pattern_iff (m : Mnemonic) (w : Word) :
    w &&& m.mask = m.pattern ↔ opField w = m.op ∧ m.format.ReservedZero w := by
  obtain ⟨hpi, hps, hpo⟩ := m.pattern_fields
  obtain ⟨hai, has, hao⟩ := fields_and w m.mask
  rw [word_eq_iff_fields, hai, has, hao, hpi, hps, hpo]
  have hop := and_0xFF (opField_lt w)
  unfold Mnemonic.mask
  cases m.format with
  | f0 =>
    show immField w &&& 0xFFFF = 0 ∧ subField w &&& 0xFF = 0 ∧ opField w &&& 0xFF = m.op ↔
      _ ∧ immField w = 0 ∧ subField w = 0
    rw [and_0xFFFF (immField_lt w), and_0xFF (subField_lt w), hop]
    tauto
  | fi =>
    show immField w &&& 0 = 0 ∧ subField w &&& 0xFF = 0 ∧ opField w &&& 0xFF = m.op ↔
      _ ∧ subField w = 0
    rw [and_0xFF (subField_lt w), hop, Nat.and_zero]
    tauto
  | fc =>
    show immField w &&& 0 = 0 ∧ subField w &&& 0xFC = 0 ∧ opField w &&& 0xFF = m.op ↔
      _ ∧ subField w / 4 = 0
    rw [and_0xFC_eq_zero_iff (subField_lt w), hop, Nat.and_zero]
    tauto

/-- Settles O3: both sides say that the word has the row's opcode and zero reserved fields. -/
theorem decodeIsMaskAndMatch : Obligations.DecodeIsMaskAndMatch := fun w m =>
  (decodes_to_row_iff w m).trans (m.and_mask_eq_pattern_iff w).symm

/-! ## Illegal words -/

/-- A word is illegal exactly when no row has its opcode, or a row has it whose format reserves a nonzero field
(R87). -/
theorem decode_error_iff (w : Word) :
    (∃ e, decode w = .error e) ↔
      (∀ m : Mnemonic, m.op ≠ opField w) ∨ ∃ m : Mnemonic, m.op = opField w ∧ ¬ m.format.ReservedZero w := by
  constructor
  · rintro ⟨e, he⟩
    by_cases hrow : ∃ m : Mnemonic, m.op = opField w
    · obtain ⟨m, hop⟩ := hrow
      refine .inr ⟨m, hop, fun hzero => ?_⟩
      obtain ⟨i, hi, _⟩ := (decodes_to_row_iff w m).mpr ⟨hop.symm, hzero⟩
      simp [he] at hi
    · exact .inl (not_exists.mp hrow)
  · intro hbad
    cases hdec : decode w with
    | error e => exact ⟨e, rfl⟩
    | ok i =>
      exfalso
      obtain hno | ⟨m, hop, hnonzero⟩ := hbad
      · exact hno i.mnemonic (op_of_decode_ok hdec).symm
      · rw [decode_of_op hop.symm, Format.read_ok_iff] at hdec
        exact hnonzero hdec.2

/-- The reserved bits of each format in the word's number, as R87 lists them. -/
theorem Format.not_reservedZero_iff (f : Format) (w : Word) :
    ¬ f.ReservedZero w ↔ (f = .f0 ∧ w.toNat / 2 ^ 8 ≠ 0) ∨ (f = .fi ∧ w.toNat / 2 ^ 8 % 2 ^ 8 ≠ 0) ∨
      (f = .fc ∧ w.toNat / 2 ^ 10 % 2 ^ 6 ≠ 0) := by
  have himm := immField_eq w
  have hsub := subField_eq w
  cases f <;> simp only [Format.ReservedZero, true_and, false_and, or_false, false_or, reduceCtorEq] <;> omega

end Sys2Proof

/-! Executing an illegal word, and the host form that issues a command (R80, R87, R91). -/

namespace Sys2Proof.Machine

/-- Settles O4: the illegal words are those of R87, and executing one enters ILLEGAL_CMD. -/
theorem illegalWordsFault : Obligations.IllegalWordsFault := by
  refine fun w => ⟨?_, fun e s he =>
    ⟨_, executeWord_of_decode_error he s, faultEntered_enterFault s .illegalCmd w _⟩⟩
  have hop : opField w = w.toNat % 2 ^ 8 := opField_eq w
  simp only [decode_error_iff, Format.not_reservedZero_iff, hop]

/-- A host that puts one event to the engine takes one step (R63). -/
theorem issue_singleton (s : State) (e : HostEvent) : issue s [e] = step (s.withPending (e :: s.pending)) := by
  unfold issue
  cases step (s.withPending (e :: s.pending)) <;> rfl

/-- Settles O7: the form is one write of the command's word to CMD, and the word decodes to the command. -/
theorem cmdFormRunsCommand : Obligations.CmdFormRunsCommand := by
  intro s i hrst hf hwf
  calc issue s ((HostForm.cmd i).events s.cfg)
    _ = step (s.withPending (cmdWrite s.cfg (encode i) :: s.pending)) := issue_singleton s _
    _ = executeWord (encode i) s := step_cmdWrite hrst hf rfl
    _ = exec i s := executeWord_of_decode_ok (decodeOfEncode i hwf) s

end Sys2Proof.Machine

/-! The Bitwise Engine (R101 to R117): what a read of A gives after each command, the partners of a byte, the bits a
shift moves, and the position a count gives. -/

namespace Sys2Proof.Machine

/-! ## Completing with bytes stored, or with a status alone -/

theorem State.read_storeA {s : State} {i : Nat} (hi : i < s.lengthA) (f : Nat → Byte) :
    (s.storeA f).bufA.read i = f i :=
  Memory.read_fill_of_lt s.bufA s.lengthA f i hi

/-- Storing bytes in A writes nothing beyond LEN_A (R25, R100). -/
theorem onlyBytesOfA_storeA (s : State) (b : Bool) (f : Nat → Byte) :
    OnlyBytesOfA s { s.storeA f with flag := b } :=
  ⟨rfl, fun i hi => Memory.read_fill_of_le s.bufA s.lengthA f i hi, SameB.refl s, SameS.refl s,
    ⟨rfl, rfl, rfl, rfl⟩, SameHost.refl s⟩

/-- Writing FLAG and RES writes nothing else (R100). -/
theorem onlyStatus_flag_res (s : State) (b : Bool) (v : Dword) :
    OnlyStatus s { s with flag := b, res := v } :=
  ⟨⟨rfl, fun _ => rfl⟩, SameB.refl s, SameS.refl s, ⟨rfl, rfl, rfl, rfl⟩, SameHost.refl s⟩

/-! ## Bits of bytes -/

/-- The bits of a byte are eight positions of the bit sequence, the most significant first (R8). -/
theorem Memory.read_getLsbD (m : Memory 8) (i : Nat) {k : Nat} (hk : k < 8) :
    (m.read i).getLsbD k = bitAt m (8 * i + (7 - k)) := by
  unfold bitAt
  rw [show (8 * i + (7 - k)) / 8 = i by omega, show 7 - (8 * i + (7 - k)) % 8 = k by omega]

/-- Bit `k` of the value is position `8L - 1 - k` of the bit sequence (R8, R9). -/
theorem valBE_testBit (m : Memory 8) {L k : Nat} (hk : k < 8 * L) :
    (valBE m L).testBit k = bitAt m (8 * L - 1 - k) := by
  rw [bitAt_eq_testBit m (L := L) (by omega), show 8 * L - 1 - (8 * L - 1 - k) = k by omega]

/-- A value of `L` bytes has no bit at or past `8L` (R9). -/
theorem valBE_testBit_of_le (m : Memory 8) {L k : Nat} (hk : 8 * L ≤ k) : (valBE m L).testBit k = false :=
  Nat.testBit_lt_two_pow ((valBE_lt m L).trans_le (Nat.pow_le_pow_right (by decide) hk))

/-- The bit sequence of a stored value (R8, R9). -/
theorem bitAt_fill_bytesBE (m : Memory 8) (v : Nat) {L j : Nat} (hj : j < 8 * L) :
    bitAt (m.fill L (bytesBE v L)) j = v.testBit (8 * L - 1 - j) := by
  rw [bitAt_eq_testBit _ hj, valBE_fill_bytesBE, Nat.testBit_mod_two_pow, decide_eq_true (by omega),
    Bool.true_and]

theorem bytesBE_zero (L i : Nat) : bytesBE 0 L i = 0#8 := by
  unfold bytesBE
  rw [Nat.zero_div]

/-! ## SHL and SHR -/

theorem shlValue_of_le {v W n : Nat} (h : W ≤ n) : shlValue v W n = 0 := if_pos h

theorem shlValue_of_lt {v W n : Nat} (h : n < W) : shlValue v W n = v * 2 ^ n % 2 ^ W :=
  if_neg (Nat.not_le_of_lt h)

theorem shlOverflow_of_le {v W n : Nat} (h : W ≤ n) : shlOverflow v W n = true := if_pos h

theorem shlOverflow_iff_of_lt {v W n : Nat} (h : n < W) : shlOverflow v W n = true ↔ v / 2 ^ (W - n) ≠ 0 := by
  rw [shlOverflow, if_neg (Nat.not_le_of_lt h), decide_eq_true_iff]

theorem shrValue_of_le {v W n : Nat} (h : W ≤ n) : shrValue v W n = 0 := if_pos h

theorem shrValue_of_lt {v W n : Nat} (h : n < W) : shrValue v W n = v / 2 ^ n :=
  if_neg (Nat.not_le_of_lt h)

theorem shrOverflow_of_le {v W n : Nat} (h : W ≤ n) : shrOverflow v W n = true := if_pos h

theorem shrOverflow_iff_of_lt {v W n : Nat} (h : n < W) : shrOverflow v W n = true ↔ v % 2 ^ n ≠ 0 := by
  rw [shrOverflow, if_neg (Nat.not_le_of_lt h), decide_eq_true_iff]

/-- Storing the value 0 zeroes the bytes of A. -/
theorem State.read_storeValueA_of_eq_zero {s : State} {v i : Nat} (hv : v = 0) (hi : i < s.lengthA) :
    (s.storeValueA v).bufA.read i = 0#8 := by
  subst hv
  exact (State.read_storeA hi _).trans (bytesBE_zero _ _)

/-- Storing a value that fits leaves that value in A. -/
theorem State.valBE_storeValueA_of_eq {s : State} {v x : Nat} (hv : v = x) (hx : x < 2 ^ s.widthA) :
    valBE (s.storeValueA v).bufA s.lengthA = x := by
  subst hv
  exact (valBE_storeValueA s v).trans (Nat.mod_eq_of_lt hx)

/-- Settles O8: the value SHL stores and the overflow it reports, on both sides of `n = W`. -/
theorem shlShiftsLeft : Obligations.ShlShiftsLeft :=
  ⟨fun n hn => decodeOfEncode (.shl n) (decide_eq_true hn), fun _ s =>
    ⟨_, rfl, onlyBytesOfA_storeA s _ _, rfl,
      fun hle => ⟨fun _ hi => State.read_storeValueA_of_eq_zero (shlValue_of_le hle) hi, shlOverflow_of_le hle⟩,
      fun hlt => ⟨State.valBE_storeValueA_of_eq (shlValue_of_lt hlt) (Nat.mod_lt _ (Nat.two_pow_pos _)),
        shlOverflow_iff_of_lt hlt⟩⟩⟩

/-- Settles O9: the value SHR stores and the overflow it reports, on both sides of `n = W`. -/
theorem shrShiftsRight : Obligations.ShrShiftsRight :=
  ⟨fun n hn => decodeOfEncode (.shr n) (decide_eq_true hn), fun _ s =>
    ⟨_, rfl, onlyBytesOfA_storeA s _ _, rfl,
      fun hle => ⟨fun _ hi => State.read_storeValueA_of_eq_zero (shrValue_of_le hle) hi, shrOverflow_of_le hle⟩,
      fun hlt => ⟨State.valBE_storeValueA_of_eq (shrValue_of_lt hlt) ((Nat.div_le_self _ _).trans_lt s.valA_lt),
        shrOverflow_iff_of_lt hlt⟩⟩⟩

/-! ## The byte form of SHL (R115)

Both forms put at position `j` of A what stood at position `j + n`, and 0 where that is past the end. -/

theorem State.bitOrZero_of_le {s : State} {p : Nat} (h : s.widthA ≤ p) : s.bitOrZero p = false := by
  rw [State.bitOrZero, decide_eq_false (Nat.not_lt_of_le h), Bool.false_and]

theorem State.bitOrZero_of_lt {s : State} {p : Nat} (h : p < s.widthA) : s.bitOrZero p = bitAt s.bufA p := by
  rw [State.bitOrZero, decide_eq_true h, Bool.true_and]

/-- SHL as a move of the bit sequence. -/
theorem bitAt_storeValueA_shlValue {s : State} {n j : Nat} (hn : n < s.widthA) (hj : j < s.widthA) :
    bitAt (s.storeValueA (shlValue s.valA s.widthA n)).bufA j = s.bitOrZero (j + n) := by
  have hbit : bitAt (s.storeValueA (shlValue s.valA s.widthA n)).bufA j =
      (decide (n ≤ s.widthA - 1 - j) && s.valA.testBit (s.widthA - 1 - j - n)) := by
    rw [shlValue_of_lt hn]
    refine (bitAt_fill_bytesBE s.bufA _ hj).trans ?_
    show (s.valA * 2 ^ n % 2 ^ s.widthA).testBit (s.widthA - 1 - j) = _
    rw [Nat.testBit_mod_two_pow, decide_eq_true (by omega), Bool.true_and, Nat.testBit_mul_two_pow]
  rw [hbit]
  rcases Nat.lt_or_ge (j + n) s.widthA with hin | hout
  · rw [State.bitOrZero_of_lt hin, decide_eq_true (by omega), Bool.true_and,
      show s.widthA - 1 - j - n = s.widthA - 1 - (j + n) by omega]
    exact (bitAt_eq_testBit s.bufA hin).symm
  · rw [State.bitOrZero_of_le hout, decide_eq_false (by omega), Bool.false_and]

/-- The byte move as a move of the bit sequence. -/
theorem movedByte_getLsbD (s : State) (q i : Nat) {k : Nat} (hk : k < 8) :
    (s.movedByte q i).getLsbD k = s.bitOrZero (8 * (i + q) + (7 - k)) := by
  have hW : s.widthA = 8 * s.lengthA := rfl
  unfold State.movedByte
  split
  next hin => rw [State.bitOrZero_of_lt (by omega), Memory.read_getLsbD _ _ hk]
  next hout => rw [State.bitOrZero_of_le (by omega), BitVec.getLsbD_zero]

/-- The test of R115 before the carry changes nothing: without it the carried byte is moved in from past the end, or
shifted out whole. -/
theorem shiftedByte_eq (s : State) (n i : Nat) :
    s.shiftedByte n i =
      (s.movedByte (n / 8) i <<< (n % 8)) ||| (s.movedByte (n / 8) (i + 1) >>> (8 - n % 8)) := by
  unfold State.shiftedByte
  split
  next => rfl
  next h =>
    congr 1
    rcases Nat.eq_zero_or_pos (n % 8) with hr | hr
    · rw [hr, BitVec.ushiftRight_eq_zero (by decide)]
    · have hout : ¬ i + 1 + n / 8 < s.lengthA := by omega
      rw [State.movedByte, if_neg hout, BitVec.zero_ushiftRight]

/-- The two passes of R115 as a move of the bit sequence. -/
theorem shiftedByte_getLsbD (s : State) (n i : Nat) {k : Nat} (hk : k < 8) :
    (s.shiftedByte n i).getLsbD k = s.bitOrZero (8 * i + (7 - k) + n) := by
  rw [shiftedByte_eq, BitVec.getLsbD_or, BitVec.getLsbD_shiftLeft, BitVec.getLsbD_ushiftRight,
    decide_eq_true hk, Bool.true_and]
  rcases Nat.lt_or_ge k (n % 8) with hcarry | hmove
  · rw [decide_eq_true hcarry, Bool.not_true, Bool.false_and, Bool.false_or,
      movedByte_getLsbD s _ _ (by omega)]
    congr 1
    omega
  · rw [decide_eq_false (by omega), Bool.not_false, Bool.true_and, movedByte_getLsbD s _ _ (by omega),
      BitVec.getLsbD_of_ge (s.movedByte (n / 8) (i + 1)) _ (by omega), Bool.or_false]
    congr 1
    omega

/-- Settles O36: both forms move the bit sequence by `n`. -/
theorem byteShiftAgrees : Obligations.ByteShiftAgrees := by
  refine fun n s hn => ⟨_, rfl, fun i hi => BitVec.eq_of_getLsbD_eq fun k hk => ?_⟩
  have hj : 8 * i + (7 - k) < s.widthA := by
    unfold State.widthA
    omega
  rw [Memory.read_getLsbD _ _ hk, shiftedByte_getLsbD s n i hk]
  exact bitAt_storeValueA_shlValue hn hj

/-! ## REV -/

/-- Reversing the bit sequence of `L` bytes reverses the bytes and the bits of each (R103). -/
theorem packByte_reversed (m : Memory 8) {L i : Nat} (hi : i < L) :
    packByte (fun j => bitAt m (8 * L - 1 - j)) i = (m.read (L - 1 - i)).reverse := by
  refine BitVec.eq_of_getLsbD_eq fun k hk => ?_
  rw [packByte_getLsbD _ _ _ hk, BitVec.getLsbD_reverse, BitVec.getMsbD, decide_eq_true hk, Bool.true_and,
    Memory.read_getLsbD _ _ (by omega)]
  congr 1
  omega

/-- The state that REV leaves (R103). -/
def State.reversed (s : State) : State :=
  { s.storeA (packByte fun j => bitAt s.bufA (s.widthA - 1 - j)) with flag := false }

theorem exec_rev (s : State) : exec .rev s = .next s.reversed := rfl

theorem State.read_reversed {s : State} {i : Nat} (hi : i < s.lengthA) :
    s.reversed.bufA.read i = (s.bufA.read (s.lengthA - 1 - i)).reverse :=
  (State.read_storeA hi _).trans (packByte_reversed s.bufA hi)

theorem State.read_reversed_of_le {s : State} {i : Nat} (hi : s.lengthA ≤ i) :
    s.reversed.bufA.read i = s.bufA.read i :=
  Memory.read_fill_of_le s.bufA s.lengthA _ i hi

/-- REV undoes itself on the whole storage of A. -/
theorem State.read_reversed_reversed (s : State) (i : Nat) :
    s.reversed.reversed.bufA.read i = s.bufA.read i := by
  have hlen : s.reversed.lengthA = s.lengthA := rfl
  rcases Nat.lt_or_ge i s.lengthA with hin | hout
  · rw [State.read_reversed (hlen ▸ hin), hlen, State.read_reversed (by omega), BitVec.reverse_reverse_eq,
      show s.lengthA - 1 - (s.lengthA - 1 - i) = i by omega]
  · rw [State.read_reversed_of_le (hlen ▸ hout), State.read_reversed_of_le hout]

/-- Settles O10: reversing the bit sequence is reversing the bytes and the bits of each, and undoes itself. -/
theorem revReversesBits : Obligations.RevReversesBits :=
  ⟨decodeOfEncode .rev rfl, fun s =>
    ⟨s.reversed, s.reversed.reversed, exec_rev s, exec_rev _, onlyBytesOfA_storeA s _ _, rfl, rfl,
      fun _ hj => bitAt_fill_packByte s.bufA _ hj, fun _ hi => State.read_reversed hi,
      State.read_reversed_reversed s⟩⟩

/-! ## NOT -/

/-- Settles O11: NOT stores the complement of each byte. -/
theorem notComplements : Obligations.NotComplements :=
  ⟨decodeOfEncode .not rfl, fun s =>
    ⟨_, rfl, onlyBytesOfA_storeA s _ _, rfl, rfl, fun _ hi => State.read_storeA hi _⟩⟩

/-! ## Pairs of bytes -/

/-- The big-endian partner counts from the ends of A and B (R116). -/
theorem State.partnerBE_eq_some {s : State} {i k : Nat} (h : i + s.lengthB = k + s.lengthA) :
    s.partnerBE i = some (s.bufB.read k) := by
  rw [State.partnerBE, if_pos (by omega), show i + s.lengthB - s.lengthA = k by omega]

theorem State.partnerBE_eq_none {s : State} {i : Nat} (h : i + s.lengthB < s.lengthA) : s.partnerBE i = none :=
  if_neg (Nat.not_le_of_lt h)

/-- A read of A after a command that pairs each byte with a big-endian partner, at a byte that has one. -/
theorem State.read_storePairsBE_some {s : State} {i k : Nat} (hi : i < s.lengthA)
    (hk : i + s.lengthB = k + s.lengthA) (g : Byte → Option Byte → Byte) :
    (s.storeA fun i => g (s.bufA.read i) (s.partnerBE i)).bufA.read i =
      g (s.bufA.read i) (some (s.bufB.read k)) := by
  rw [State.read_storeA hi, State.partnerBE_eq_some hk]

/-- A read of A after a command that pairs each byte with a big-endian partner, at a byte that has none. -/
theorem State.read_storePairsBE_none {s : State} {i : Nat} (hi : i < s.lengthA)
    (hk : i + s.lengthB < s.lengthA) (g : Byte → Option Byte → Byte) :
    (s.storeA fun i => g (s.bufA.read i) (s.partnerBE i)).bufA.read i = g (s.bufA.read i) none := by
  rw [State.read_storeA hi, State.partnerBE_eq_none hk]

/-- A read of A after a command that pairs each byte with a little-endian partner (R117). -/
theorem State.read_storePairsLE {s : State} {i : Nat} (hi : i < s.lengthA) (g : Byte → Option Byte → Byte) :
    (s.storeA fun i => g (s.bufA.read i) (s.partnerLE i)).bufA.read i =
      if i < s.lengthB then g (s.bufA.read i) (some (s.bufB.read i)) else g (s.bufA.read i) none :=
  (State.read_storeA hi _).trans (apply_ite (g (s.bufA.read i)) _ _ _)

/-- A missing partner counts as a zero byte under AND (R105). -/
theorem andPartner_getLsbD (x : Byte) (o : Option Byte) (k : Nat) :
    (andPartner x o).getLsbD k = (x.getLsbD k && (o.getD 0#8).getLsbD k) := by
  cases o with
  | none => simp [andPartner]
  | some y => exact BitVec.getLsbD_and

/-- The big-endian partners of the bytes of A, zero where there is none, are the value of B (R9, R116). -/
theorem State.partnerBE_getLsbD {s : State} {i k : Nat} (hi : i < s.lengthA) (hk : k < 8) :
    ((s.partnerBE i).getD 0#8).getLsbD k = s.valB.testBit (8 * (s.lengthA - 1 - i) + k) := by
  rcases Nat.lt_or_ge (i + s.lengthB) s.lengthA with hnone | hsome
  · rw [State.partnerBE_eq_none hnone]
    exact BitVec.getLsbD_zero.trans (valBE_testBit_of_le s.bufB (by omega)).symm
  · rw [State.partnerBE_eq_some (k := i + s.lengthB - s.lengthA) (by omega), Option.getD_some,
      Memory.read_getLsbD _ _ hk]
    refine Eq.trans ?_ (valBE_testBit s.bufB (L := s.lengthB) (by omega)).symm
    congr 1
    omega

/-- BEAND as a value (R105). -/
theorem valBE_storePairs_and (s : State) :
    valBE (s.storeA fun i => andPartner (s.bufA.read i) (s.partnerBE i)).bufA s.lengthA =
      s.valA &&& (s.valB % 2 ^ s.widthA) := by
  refine Nat.eq_of_testBit_eq fun k => ?_
  rw [Nat.testBit_and, Nat.testBit_mod_two_pow]
  rcases Nat.lt_or_ge k s.widthA with hin | hout
  · have hk : k < 8 * s.lengthA := hin
    have hi : (8 * s.lengthA - 1 - k) / 8 < s.lengthA := by omega
    have hA : s.valA.testBit k = bitAt s.bufA (8 * s.lengthA - 1 - k) := valBE_testBit s.bufA hk
    rw [valBE_testBit _ hk, hA, decide_eq_true hin, Bool.true_and, bitAt, State.read_storeA hi,
      andPartner_getLsbD, State.partnerBE_getLsbD hi (by omega), bitAt]
    congr 2
    omega
  · rw [valBE_testBit_of_le _ hout, decide_eq_false (by omega), Bool.false_and, Bool.and_false]

/-- Settles O12: AND with the partner, 0 without one, and the value form. -/
theorem beandResult : Obligations.BeandResult :=
  ⟨decodeOfEncode .beand rfl, fun s =>
    ⟨_, rfl, onlyBytesOfA_storeA s _ _, rfl, rfl,
      fun _ _ hi hk => State.read_storePairsBE_some hi hk andPartner,
      fun _ hi hk => State.read_storePairsBE_none hi hk andPartner, valBE_storePairs_and s⟩⟩

/-- Settles O13: the two branches of BEOR exclude each other by the lengths. -/
theorem beorResultOrFault : Obligations.BeorResultOrFault := by
  refine ⟨decodeOfEncode .beor rfl, fun s => ?_⟩
  rcases Nat.lt_or_ge s.lengthB s.lengthA with hshort | hlong
  · exact ⟨_, if_pos hshort, fun hle => absurd hle (by omega),
      fun _ => faultEntered_enterFault s .operandLength _ _⟩
  · exact ⟨_, if_neg (by omega),
      fun _ => ⟨onlyBytesOfA_storeA s _ _, rfl, rfl,
        fun _ _ hi hk => State.read_storePairsBE_some hi hk orPartner⟩,
      fun hlt => absurd hlt (by omega)⟩

/-- Settles O14: XOR with the partner, the byte itself without one. -/
theorem bexorResult : Obligations.BexorResult :=
  ⟨decodeOfEncode .bexor rfl, fun s =>
    ⟨_, rfl, onlyBytesOfA_storeA s _ _, rfl, rfl,
      fun _ _ hi hk => State.read_storePairsBE_some hi hk xorPartner,
      fun _ hi hk => State.read_storePairsBE_none hi hk xorPartner⟩⟩

/-- Settles O15: the three little-endian commands store what their byte operation makes of the partner. -/
theorem littleEndianResults : Obligations.LittleEndianResults :=
  ⟨decodeOfEncode .leand rfl, decodeOfEncode .leor rfl, decodeOfEncode .lexor rfl, fun s =>
    ⟨_, _, _, rfl, rfl, rfl,
      ⟨onlyBytesOfA_storeA s _ _, rfl, rfl, fun _ hi => State.read_storePairsLE hi andPartner⟩,
      ⟨onlyBytesOfA_storeA s _ _, rfl, rfl, fun _ hi => State.read_storePairsLE hi orPartner⟩,
      ⟨onlyBytesOfA_storeA s _ _, rfl, rfl, fun _ hi => State.read_storePairsLE hi xorPartner⟩⟩⟩

/-! ## ALLZ and ALLO -/

/-- The predicate of ALLZ and ALLO: every byte of A below LEN_A is `v` (R111, R112). -/
theorem State.all_bytesA_iff (s : State) (v : Byte) :
    (List.range s.lengthA).all (fun i => s.bufA.read i == v) = true ↔
      ∀ i, i < s.lengthA → s.bufA.read i = v := by
  simp only [List.all_eq_true, List.mem_range, beq_iff_eq]

/-- Settles O16: FLAG is the predicate over the bytes of A. -/
theorem allZeroAllOneFlags : Obligations.AllZeroAllOneFlags :=
  ⟨decodeOfEncode .allz rfl, decodeOfEncode .allo rfl, fun s =>
    ⟨_, _, rfl, rfl, ⟨onlyStatus_flag_res s _ s.res, rfl, s.all_bytesA_iff 0x00#8⟩,
      ⟨onlyStatus_flag_res s _ s.res, rfl, s.all_bytesA_iff 0xFF#8⟩⟩⟩

/-! ## LZC and TZC -/

/-- `n` is the least position below `W` at which `p` holds, or `W` if there is none. -/
structure FirstTrue (p : Nat → Bool) (W n : Nat) : Prop where
  le : n ≤ W
  before : ∀ k, k < n → p k = false
  at_first : n < W → p n = true

theorem FirstTrue.le_first {p : Nat → Bool} {W n n' : Nat} (h : FirstTrue p W n) (h' : FirstTrue p W n') :
    n ≤ n' := by
  by_contra hlt
  have hbefore : p n' = false := h.before n' (by omega)
  have hfirst : p n' = true := h'.at_first ((Nat.lt_of_not_le hlt).trans_le h.le)
  exact absurd (hbefore.symm.trans hfirst) (by decide)

theorem FirstTrue.unique {p : Nat → Bool} {W n n' : Nat} (h : FirstTrue p W n) (h' : FirstTrue p W n') :
    n = n' :=
  Nat.le_antisymm (h.le_first h') (h'.le_first h)

theorem FirstTrue.of_first {p : Nat → Bool} {W j : Nat} (hj : j < W) (hp : p j = true)
    (hbefore : ∀ k, k < j → p k = false) : FirstTrue p W j :=
  ⟨hj.le, hbefore, fun _ => hp⟩

theorem FirstTrue.of_none {p : Nat → Bool} {W : Nat} (h : ∀ k, k < W → p k = false) : FirstTrue p W W :=
  ⟨le_rfl, h, fun hlt => absurd hlt (lt_irrefl W)⟩

theorem FirstTrue.congr {p q : Nat → Bool} {W n : Nat} (h : FirstTrue p W n) (hpq : ∀ k, k < W → q k = p k) :
    FirstTrue q W n :=
  ⟨h.le, fun k hk => (hpq k (hk.trans_le h.le)).trans (h.before k hk),
    fun hn => (hpq n hn).trans (h.at_first hn)⟩

theorem firstTrue_leadingZeros (v W : Nat) : FirstTrue (fun k => v.testBit (W - 1 - k)) W (leadingZeros v W) :=
  ⟨leadingZeros_le v W, (leadingZeros_spec v W).1, (leadingZeros_spec v W).2⟩

theorem firstTrue_trailingZeros (v W : Nat) : FirstTrue v.testBit W (trailingZeros v W) :=
  ⟨trailingZeros_le v W, (trailingZeros_spec v W).1, (trailingZeros_spec v W).2⟩

/-- LZC counts along the bit sequence of A (R113). -/
theorem State.firstTrue_lzc (s : State) :
    FirstTrue (bitAt s.bufA) s.widthA (leadingZeros s.valA s.widthA) :=
  (firstTrue_leadingZeros s.valA s.widthA).congr fun _ hk => bitAt_eq_testBit s.bufA hk

/-- TZC counts along the bit sequence of A from its end (R114). -/
theorem State.firstTrue_tzc (s : State) :
    FirstTrue (fun k => bitAt s.bufA (s.widthA - 1 - k)) s.widthA (trailingZeros s.valA s.widthA) :=
  (firstTrue_trailingZeros s.valA s.widthA).congr fun _ hk => (valBE_testBit s.bufA hk).symm

/-- A count of bits of A fits in RES (R28). -/
theorem State.toNat_count {s : State} {n : Nat} (h : n ≤ s.widthA) : (BitVec.ofNat 64 n).toNat = n := by
  have hlen := s.lengthA_lt
  unfold State.widthA at h
  rw [BitVec.toNat_ofNat, Nat.mod_eq_of_lt (by omega)]

/-- Settles O17: RES is the first 1 bit along the bit sequence of A. -/
theorem lzcCountsLeadingZeros : Obligations.LzcCountsLeadingZeros := by
  refine ⟨decodeOfEncode .lzc rfl, fun s => ⟨_, rfl, onlyStatus_flag_res s _ _, rfl, ?_⟩⟩
  have hcount := s.firstTrue_lzc
  rw [State.setRes_res, State.toNat_count hcount.le]
  exact ⟨fun j hj hbit hbefore => hcount.unique (.of_first hj hbit hbefore),
    fun hzero => hcount.unique (.of_none hzero)⟩

/-- Settles O18: RES is the first 1 bit along the bit sequence of A from its end. -/
theorem tzcCountsTrailingZeros : Obligations.TzcCountsTrailingZeros := by
  refine ⟨decodeOfEncode .tzc rfl, fun s => ⟨_, rfl, onlyStatus_flag_res s _ _, rfl, ?_⟩⟩
  have hcount := s.firstTrue_tzc
  rw [State.setRes_res, State.toNat_count hcount.le]
  refine ⟨fun j hj hbit hafter => ?_, fun hzero => hcount.unique (.of_none fun k hk => hzero _ (by omega))⟩
  have hlast : bitAt s.bufA (s.widthA - 1 - (s.widthA - 1 - j)) = true := by
    rwa [show s.widthA - 1 - (s.widthA - 1 - j) = j by omega]
  exact hcount.unique (.of_first (by omega) hlast fun k hk => hafter _ (by omega) (by omega))

end Sys2Proof.Machine

/-! The bit iterator and chunk codec (R150 to R158): the states its commands leave, the sums their packed values are,
the two round trips, and the packer of R156. -/

namespace Sys2Proof.Machine

/-! ## A new sequence in S, a new buffer in A -/

/-- Writing a new sequence in S writes only its elements, LEN_S and FLAG (R25, R150). -/
theorem onlyNewS_newS (s : State) (b : Bool) (n : Nat) (f : Nat → Dword) :
    OnlyNewS n s { s.newS n f with flag := b } :=
  ⟨fun j hj => Memory.read_fill_of_le s.bufS n f j hj, ⟨rfl, fun _ => rfl⟩, SameB.refl s,
    ⟨rfl, rfl, rfl, rfl⟩, SameHost.refl s⟩

/-- Writing a new buffer in A writes only its bytes, LEN_A and FLAG (R25, R150). -/
theorem onlyNewA_newA (s : State) (b : Bool) (n : Nat) (f : Nat → Byte) :
    OnlyNewA n s { s.newA n f with flag := b } :=
  ⟨fun i hi => Memory.read_fill_of_le s.bufA n f i hi, SameB.refl s, SameS.refl s,
    ⟨rfl, rfl, rfl, rfl⟩, SameHost.refl s⟩

/-- A length that fits in a length register is stored as it is (R26). -/
theorem toNat_storedLength {n : Nat} (h : n < 65536) : (BitVec.ofNat 16 n).toNat = n :=
  (BitVec.toNat_ofNat n 16).trans (Nat.mod_eq_of_lt h)

theorem State.read_newS {s : State} {n j : Nat} (hj : j < n) (f : Nat → Dword) :
    (s.newS n f).bufS.read j = f j :=
  Memory.read_fill_of_lt s.bufS n f j hj

theorem State.read_newA {s : State} {n i : Nat} (hi : i < n) (f : Nat → Byte) :
    (s.newA n f).bufA.read i = f i :=
  Memory.read_fill_of_lt s.bufA n f i hi

/-! ## Packed values as the sums of the rules -/

/-- A bit taken as 0 where `p` fails, as a number. -/
theorem toNat_decide_and (p : Prop) [Decidable p] (b : Bool) :
    (decide p && b).toNat = if p ∧ b = true then 1 else 0 := by
  by_cases hp : p <;> cases b <;> simp [hp]

/-- The bits of a value, most significant first, pack to the value (R150). -/
theorem packMsb_testBit_rev (v n : Nat) : packMsb (fun t => v.testBit (n - 1 - t)) n = v % 2 ^ n := by
  refine Nat.eq_of_testBit_eq fun k => ?_
  rw [packMsb_testBit, Nat.testBit_mod_two_pow]
  by_cases hk : k < n
  · rw [show n - 1 - (n - 1 - k) = k by omega]
  · rw [decide_eq_false hk, Bool.false_and, Bool.false_and]

/-- Eight positions of the bit sequence pack to the byte they come from (R8). -/
theorem packByte_eq_read {m : Memory 8} {f : Nat → Bool} {i : Nat}
    (h : ∀ b, b < 8 → f (8 * i + b) = bitAt m (8 * i + b)) : packByte f i = m.read i := by
  refine BitVec.eq_of_getLsbD_eq fun k hk => ?_
  rw [packByte_getLsbD _ _ _ hk, Memory.read_getLsbD _ _ hk, h _ (by omega)]

theorem State.chunkOfA_eq_sum (s : State) (n c : Nat) :
    s.chunkOfA n c = ∑ b ∈ Finset.range n,
      (if c * n + b < s.widthA ∧ bitAt s.bufA (c * n + b) = true then 1 else 0) * 2 ^ (n - 1 - b) :=
  (packMsb_eq_sum _ n).trans
    (Finset.sum_congr rfl fun _ _ => congrArg (· * _) (toNat_decide_and _ _))

theorem packByte_streamBit_eq_sum (s : State) (i : Nat) :
    (packByte s.streamBit i).toNat = ∑ b ∈ Finset.range 8,
      (if 8 * i + b < s.lengthS ∧ (s.bufS.read (8 * i + b)).getLsbD 0 = true then 1 else 0) * 2 ^ (7 - b) :=
  ((packByte_toNat _ i).trans (packMsb_eq_sum _ 8)).trans
    (Finset.sum_congr rfl fun _ _ => congrArg (· * _) (toNat_decide_and _ _))

/-- `cb(p)` of R155 as a number. -/
theorem State.chunkBit_toNat (s : State) (n p : Nat) :
    (s.chunkBit n p).toNat =
      if p < s.lengthS * n then (s.bufS.read (p / n)).toNat % 2 ^ n / 2 ^ (n - 1 - p % n) % 2 else 0 := by
  unfold State.chunkBit
  split
  next h => rw [decide_eq_true h, Bool.true_and, Nat.toNat_testBit]
  next h => rw [decide_eq_false h, Bool.false_and, Bool.toNat_false]

theorem packByte_chunkBit_eq_sum (s : State) (n i : Nat) :
    (packByte (s.chunkBit n) i).toNat = ∑ b ∈ Finset.range 8,
      (if 8 * i + b < s.lengthS * n then
        (s.bufS.read ((8 * i + b) / n)).toNat % 2 ^ n / 2 ^ (n - 1 - (8 * i + b) % n) % 2
      else 0) * 2 ^ (7 - b) :=
  ((packByte_toNat _ i).trans (packMsb_eq_sum _ 8)).trans
    (Finset.sum_congr rfl fun _ _ => congrArg (· * _) (s.chunkBit_toNat n _))

/-! ## The states the commands leave -/

/-- The state that BITS leaves (R151). -/
def State.bitsInS (s : State) : State :=
  { s.newS s.widthA (fun j => BitVec.ofNat 64 (bitAt s.bufA j).toNat) with flag := false }

theorem exec_bits (s : State) : exec .bits s = .next s.bitsInS := rfl

/-- The state that CHUNKS leaves for a width in range (R153). -/
def State.chunksInS (s : State) (n : Nat) : State :=
  { s.newS (chunkCount s.cfg.tail s.widthA n) (fun c => BitVec.ofNat 64 (s.chunkOfA n c)) with flag := false }

theorem badChunkWidth_iff (n : Nat) (ct : ChunkType) :
    badChunkWidth n ct = true ↔ n < 1 ∨ 32 < n ∨ ChunkType.width ct < n := by
  rw [badChunkWidth, Bool.or_eq_true, decide_eq_true_iff, decide_eq_true_iff]
  omega

theorem exec_chunks_of_bad {n : Nat} {ct : ChunkType} (h : n < 1 ∨ 32 < n ∨ ChunkType.width ct < n)
    (s : State) : exec (.chunks n ct) s = commandFault .chunkWidth (.chunks n ct) s :=
  if_pos ((badChunkWidth_iff n ct).mpr h)

theorem exec_chunks {n : Nat} {ct : ChunkType} (h1 : 1 ≤ n) (h32 : n ≤ 32) (hct : n ≤ ChunkType.width ct)
    (s : State) : exec (.chunks n ct) s = .next (s.chunksInS n) :=
  if_neg (mt (badChunkWidth_iff n ct).mp (by omega))

/-- The state that FROMBITS leaves (R154). -/
def State.packedBits (s : State) : State :=
  { s.newA (bytesForBits s.lengthS) (packByte s.streamBit) with flag := false }

theorem exec_frombits (s : State) : exec .frombits s = .next s.packedBits := rfl

/-- The state that FROMCHUNKS leaves when it completes (R155). -/
def State.packedChunks (s : State) (n : Nat) : State :=
  { s.newA (bytesForBits (s.lengthS * n)) (packByte (s.chunkBit n)) with flag := false }

theorem badPackWidth_iff (n : Nat) : badPackWidth n = true ↔ n < 1 ∨ 32 < n := by
  rw [badPackWidth, Bool.or_eq_true, decide_eq_true_iff, decide_eq_true_iff]

theorem exec_fromchunks_of_bad {n : Nat} (h : n < 1 ∨ 32 < n) (s : State) :
    exec (.fromchunks n) s = commandFault .chunkWidth (.fromchunks n) s :=
  if_pos ((badPackWidth_iff n).mpr h)

theorem exec_fromchunks_of_long {n : Nat} (h1 : 1 ≤ n) (h32 : n ≤ 32) {s : State}
    (hcap : s.cfg.maxlen < bytesForBits (s.lengthS * n)) :
    exec (.fromchunks n) s = commandFault .capacity (.fromchunks n) s :=
  (if_neg (mt (badPackWidth_iff n).mp (by omega))).trans (if_pos hcap)

theorem exec_fromchunks {n : Nat} (h1 : 1 ≤ n) (h32 : n ≤ 32) {s : State}
    (hcap : bytesForBits (s.lengthS * n) ≤ s.cfg.maxlen) :
    exec (.fromchunks n) s = .next (s.packedChunks n) :=
  (if_neg (mt (badPackWidth_iff n).mp (by omega))).trans (if_neg (Nat.not_lt.mpr hcap))

/-! ## BITS and BITGET -/

theorem State.bitsInS_lengthS {s : State} (h : s.lengthA ≤ 4096) : s.bitsInS.lengthS = s.widthA :=
  toNat_storedLength (n := 8 * s.lengthA) (by omega)

theorem State.read_bitsInS {s : State} {j : Nat} (hj : j < s.widthA) :
    s.bitsInS.bufS.read j = if bitAt s.bufA j then 1#64 else 0#64 := by
  refine (State.read_newS hj _).trans ?_
  cases bitAt s.bufA j <;> rfl

/-- Settles O20: element `j` of the sequence BITS writes is the number of bit `j`. -/
theorem bitsWritesBitSequence : Obligations.BitsWritesBitSequence :=
  ⟨decodeOfEncode .bits rfl, fun s hA =>
    ⟨s.bitsInS, exec_bits s, onlyNewS_newS s _ _ _, rfl, rfl, State.bitsInS_lengthS hA,
      fun _ hj => State.read_bitsInS hj⟩⟩

/-- Settles O21: the two branches of BITGET exclude each other by `k`. -/
theorem bitgetReadsBit : Obligations.BitgetReadsBit := by
  refine fun k s hk => ⟨decodeOfEncode (.bitget k) (decide_eq_true hk), ?_⟩
  rcases Nat.lt_or_ge k s.widthA with hin | hout
  · exact ⟨_, if_neg (Nat.not_le.mpr hin), fun _ => ⟨onlyStatus_flag_res s _ s.res, rfl, rfl⟩,
      fun hle => absurd hin (Nat.not_lt.mpr hle)⟩
  · exact ⟨_, if_pos hout, fun hlt => absurd hlt (Nat.not_lt.mpr hout),
      fun _ => faultEntered_enterFault s .bitIndex _ _⟩

/-! ## CHUNKS -/

/-- The chunks of A never outnumber its bits, so their count fits in LEN_S (R26, R153). -/
theorem State.chunksInS_lengthS {s : State} {n : Nat} (h1 : 1 ≤ n) (hA : s.lengthA ≤ 4096) :
    (s.chunksInS n).lengthS = chunkCount s.cfg.tail s.widthA n := by
  have hK : chunkCount s.cfg.tail s.widthA n ≤ 8 * s.lengthA := chunkCount_le _ _ h1
  exact toNat_storedLength (by omega)

/-- A chunk of at most 32 bits fits in an element of S (R153). -/
theorem State.read_chunksInS {s : State} {n c : Nat} (h32 : n ≤ 32)
    (hc : c < chunkCount s.cfg.tail s.widthA n) :
    ((s.chunksInS n).bufS.read c).toNat = s.chunkOfA n c := by
  have hfits : s.chunkOfA n c < 2 ^ 64 :=
    (packMsb_lt _ n).trans_le (Nat.pow_le_pow_right (by decide) (by omega))
  exact (congrArg BitVec.toNat (State.read_newS hc _)).trans
    ((BitVec.toNat_ofNat _ 64).trans (Nat.mod_eq_of_lt hfits))

theorem chunkCount_drop {tail : ChunkTail} (h : tail = .drop) (W n : Nat) : chunkCount tail W n = W / n := by
  subst h
  rfl

theorem chunkCount_pad {tail : ChunkTail} (h : tail = .pad) (W n : Nat) :
    chunkCount tail W n = (W + n - 1) / n := by
  subst h
  rfl

/-- Settles O22: a width in range gives `chunkCount` chunks, each the sum of its bits; any other width faults. -/
theorem chunksRegroupsBits : Obligations.ChunksRegroupsBits := by
  refine fun n ct s hn hA => ⟨decodeOfEncode (.chunks n ct) (decide_eq_true hn), ?_⟩
  by_cases hbad : n < 1 ∨ 32 < n ∨ ChunkType.width ct < n
  · exact ⟨_, 0, exec_chunks_of_bad hbad s, fun _ => faultEntered_enterFault s .chunkWidth _ _,
      fun h1 h32 hct => absurd hbad (by omega)⟩
  · exact ⟨s.chunksInS n, chunkCount s.cfg.tail s.widthA n,
      exec_chunks (by omega) (by omega) (by omega) s, fun h => absurd h hbad,
      fun h1 h32 _ => ⟨fun hd => chunkCount_drop hd _ n, fun hp => chunkCount_pad hp _ n,
        onlyNewS_newS s _ _ _, rfl, rfl, State.chunksInS_lengthS h1 hA,
        fun c hc => (State.read_chunksInS h32 hc).trans (s.chunkOfA_eq_sum n c)⟩⟩

/-! ## FROMBITS and FROMCHUNKS -/

theorem bytesForBits_eight_mul (L : Nat) : bytesForBits (8 * L) = L := by
  unfold bytesForBits
  omega

theorem State.packedBits_lengthA {s : State} (h : s.lengthS ≤ 32768) :
    s.packedBits.lengthA = bytesForBits s.lengthS :=
  toNat_storedLength (n := (s.lengthS + 7) / 8) (by omega)

/-- Settles O23: each byte FROMBITS packs is the sum of its bits. -/
theorem frombitsPacksBits : Obligations.FrombitsPacksBits :=
  ⟨decodeOfEncode .frombits rfl, fun s hS =>
    ⟨s.packedBits, exec_frombits s, onlyNewA_newA s _ _ _, rfl, rfl, State.packedBits_lengthA hS,
      fun i hi => (congrArg BitVec.toNat (State.read_newA hi _)).trans (packByte_streamBit_eq_sum s i)⟩⟩

theorem State.packedChunks_lengthA {s : State} {n : Nat} (hp : s.cfg.legal = true)
    (hcap : bytesForBits (s.lengthS * n) ≤ s.cfg.maxlen) :
    (s.packedChunks n).lengthA = bytesForBits (s.lengthS * n) :=
  State.newA_lengthA hp hcap (packByte (s.chunkBit n))

/-- Settles O24: the width is checked before the capacity, and what fits is packed byte by byte. -/
theorem fromchunksPacksChunks : Obligations.FromchunksPacksChunks := by
  refine fun n s hn hp => ⟨decodeOfEncode (.fromchunks n) (decide_eq_true hn), ?_⟩
  by_cases hbad : n < 1 ∨ 32 < n
  · exact ⟨_, exec_fromchunks_of_bad hbad s, fun _ => faultEntered_enterFault s .chunkWidth _ _,
      fun h1 h32 => absurd hbad (by omega), fun h1 h32 => absurd hbad (by omega)⟩
  · have h1 : 1 ≤ n := by omega
    have h32 : n ≤ 32 := by omega
    rcases Nat.lt_or_ge s.cfg.maxlen (bytesForBits (s.lengthS * n)) with hlong | hfits
    · exact ⟨_, exec_fromchunks_of_long h1 h32 hlong, fun h => absurd h hbad,
        fun _ _ _ => faultEntered_enterFault s .capacity _ _,
        fun _ _ hfits => absurd hlong (Nat.not_lt.mpr hfits)⟩
    · exact ⟨s.packedChunks n, exec_fromchunks h1 h32 hfits, fun h => absurd h hbad,
        fun _ _ hlong => absurd hlong (Nat.not_lt.mpr hfits),
        fun _ _ _ => ⟨onlyNewA_newA s _ _ _, rfl, rfl, State.packedChunks_lengthA hp hfits,
          fun i hi => (congrArg BitVec.toNat (State.read_newA hi _)).trans (packByte_chunkBit_eq_sum s n i)⟩⟩

/-! ## The round trips

Each packs into A a sequence that is, below W, the bit sequence A already held. -/

/-- A new buffer of LEN_A bytes packed from the bit sequence of A restores A and LEN_A. -/
theorem sameA_of_packed {s t : State} (hA : SameA s t) {T : Nat} (hT : T = s.widthA) {f : Nat → Bool}
    (hf : ∀ p, p < s.widthA → f p = bitAt s.bufA p) :
    SameA s { t.newA (bytesForBits T) (packByte f) with flag := false } := by
  obtain ⟨hlen, hread⟩ := hA
  have hL : bytesForBits T = s.lenA.toNat := hT ▸ bytesForBits_eight_mul s.lengthA
  refine ⟨(congrArg (BitVec.ofNat 16) hL).trans (BitVec.ofNat_toNat 16 s.lenA), fun i => ?_⟩
  refine (Memory.read_fill t.bufA _ _ i).trans ?_
  split
  next hi =>
    refine packByte_eq_read fun b hb => hf _ ?_
    unfold State.widthA State.lengthA
    omega
  next => exact hread i

/-- FROMBITS reads back from S the bits that BITS wrote (R151, R154). -/
theorem State.streamBit_bitsInS {s : State} (hA : s.lengthA ≤ 4096) {p : Nat} (hp : p < s.widthA) :
    s.bitsInS.streamBit p = bitAt s.bufA p := by
  rw [State.streamBit, State.bitsInS_lengthS hA, decide_eq_true hp, Bool.true_and, State.read_bitsInS hp]
  cases bitAt s.bufA p <;> rfl

/-- Settles O26: FROMBITS packs the bits that BITS wrote. -/
theorem bitsRoundTripRestoresA : Obligations.BitsRoundTripRestoresA := fun s hA =>
  ⟨s.bitsInS, s.bitsInS.packedBits, exec_bits s, exec_frombits _,
    sameA_of_packed ⟨rfl, fun _ => rfl⟩ (State.bitsInS_lengthS hA) fun _ hp => State.streamBit_bitsInS hA hp⟩

/-- With no partial chunk PAD and DROP agree (R157). -/
theorem chunkCount_mul_of_dvd (tail : ChunkTail) {W n : Nat} (h1 : 1 ≤ n) (h : W % n = 0) :
    chunkCount tail W n * n = W := by
  obtain ⟨k, rfl⟩ := Nat.dvd_of_mod_eq_zero h
  cases tail with
  | pad =>
    rw [chunkCount_pad rfl, Nat.add_sub_assoc h1, Nat.mul_add_div h1, Nat.div_eq_of_lt (by omega), Nat.add_zero,
      Nat.mul_comm]
  | drop => rw [chunkCount_drop rfl, Nat.mul_div_cancel_left k h1, Nat.mul_comm]

/-- Bit `n - 1 - t` of a chunk is the bit of A that went in at place `t` (R153). -/
theorem State.chunkOfA_testBit (s : State) {n t : Nat} (c : Nat) (ht : t < n) :
    (s.chunkOfA n c).testBit (n - 1 - t) = s.bitOrZero (c * n + t) := by
  rw [State.chunkOfA, packMsb_testBit, decide_eq_true (by omega), Bool.true_and,
    show n - 1 - (n - 1 - t) = t by omega]

/-- FROMCHUNKS reads back from S the bits that CHUNKS regrouped (R153, R155, R158). -/
theorem State.chunkBit_chunksInS {s : State} {n : Nat} (h1 : 1 ≤ n) (h32 : n ≤ 32) (hA : s.lengthA ≤ 4096)
    (hdvd : s.widthA % n = 0) {p : Nat} (hp : p < s.widthA) :
    (s.chunksInS n).chunkBit n p = bitAt s.bufA p := by
  have hT := chunkCount_mul_of_dvd s.cfg.tail h1 hdvd
  have hc : p / n < chunkCount s.cfg.tail s.widthA n := Nat.div_lt_of_lt_mul (by rwa [Nat.mul_comm, hT])
  rw [State.chunkBit, State.chunksInS_lengthS h1 hA, hT, decide_eq_true hp, Bool.true_and,
    State.read_chunksInS h32 hc, Nat.mod_eq_of_lt (show s.chunkOfA n (p / n) < 2 ^ n from packMsb_lt _ n),
    State.chunkOfA_testBit s _ (Nat.mod_lt p h1), Nat.div_add_mod', State.bitOrZero_of_lt hp]

/-- Settles O25: FROMCHUNKS packs the bits that CHUNKS regrouped, and they fill A exactly. -/
theorem chunkRoundTripRestoresA : Obligations.ChunkRoundTripRestoresA := by
  intro n ct s h1 h32 hct hp hlen hdvd
  have hA : s.lengthA ≤ 4096 := hlen.trans ((Params.legal_iff s.cfg).mp hp).2
  have hT : (s.chunksInS n).lengthS * n = s.widthA := by
    rw [State.chunksInS_lengthS h1 hA, chunkCount_mul_of_dvd _ h1 hdvd]
  have hcap : bytesForBits ((s.chunksInS n).lengthS * n) ≤ s.cfg.maxlen := by
    rw [hT]
    exact (bytesForBits_eight_mul s.lengthA).trans_le hlen
  exact ⟨s.chunksInS n, (s.chunksInS n).packedChunks n, exec_chunks h1 h32 hct s, exec_fromchunks h1 h32 hcap,
    sameA_of_packed ⟨rfl, fun _ => rfl⟩ hT fun _ hp => State.chunkBit_chunksInS h1 h32 hA hdvd hp⟩

/-! ## The packer of R156

Its accumulator is at every point a stretch of the bit sequence `chunkBit`, so each byte it gives is a packed byte. -/

theorem packMsb_add (f : Nat → Bool) (a b : Nat) :
    packMsb f (a + b) = packMsb f a * 2 ^ b + packMsb (fun t => f (a + t)) b := by
  induction b with
  | zero => simp [packMsb]
  | succ b ih =>
    rw [← Nat.add_assoc, packMsb_succ, packMsb_succ, ih, Nat.pow_succ]
    ring

/-- The last `b` of the packed bits. -/
theorem packMsb_mod (f : Nat → Bool) (a b : Nat) :
    packMsb f (a + b) % 2 ^ b = packMsb (fun t => f (a + t)) b := by
  rw [packMsb_add, Nat.mul_add_mod_self_right, Nat.mod_eq_of_lt (packMsb_lt _ b)]

/-- The first `a` of the packed bits. -/
theorem packMsb_div (f : Nat → Bool) (a b : Nat) : packMsb f (a + b) / 2 ^ b = packMsb f a := by
  rw [packMsb_add, Nat.mul_comm, Nat.mul_add_div (Nat.two_pow_pos b), Nat.div_eq_of_lt (packMsb_lt _ b), Nat.add_zero]

/-- Positions past the end of the sequence pack as low-order zeros. -/
theorem packMsb_of_end {f : Nat → Bool} {a : Nat} (h : ∀ p, a ≤ p → f p = false) (b : Nat) :
    packMsb f (a + b) = packMsb f a * 2 ^ b := by
  induction b with
  | zero => rw [Nat.add_zero, Nat.pow_zero, Nat.mul_one]
  | succ b ih =>
    rw [← Nat.add_assoc, packMsb_succ, ih, h _ (Nat.le_add_right a b), Nat.pow_succ, Bool.toNat_false]
    ring

/-- A byte of a sequence that begins `q` bytes further on. -/
theorem packByte_shift (f : Nat → Bool) (q i : Nat) :
    packByte (fun t => f (8 * q + t)) i = packByte f (q + i) := by
  unfold packByte
  simp only [Nat.mul_add, Nat.add_assoc]

/-- A byte holds the last eight of the packed bits. -/
theorem ofNat_packMsb_eq_packByte (f : Nat → Bool) (i : Nat) :
    BitVec.ofNat 8 (packMsb f (8 * i + 8)) = packByte f i := by
  refine BitVec.eq_of_toNat_eq ?_
  rw [packByte_toNat, BitVec.toNat_ofNat, packMsb_mod]

/-- The complete bytes of packed bits, from byte `e` on, are the packed bytes. -/
theorem completeBytes_packMsb (f : Nat → Bool) (r q e : Nat) :
    completeBytes (packMsb f (8 * (e + q) + r)) r q = (List.range q).map fun i => packByte f (e + i) := by
  induction q generalizing e with
  | zero => rfl
  | succ q ih =>
    have htop : packMsb f (8 * (e + (q + 1)) + r) / 2 ^ (r + 8 * q) = packMsb f (8 * e + 8) := by
      rw [show 8 * (e + (q + 1)) + r = 8 * e + 8 + (r + 8 * q) by omega, packMsb_div]
    rw [completeBytes, htop, ofNat_packMsb_eq_packByte, show e + (q + 1) = e + 1 + q by omega, ih,
      List.range_succ_eq_map, List.map_cons, List.map_map]
    refine congrArg (_ :: ·) (List.map_congr_left fun i _ => ?_)
    rw [Function.comp_apply, Nat.succ_eq_add_one, Nat.add_assoc, Nat.add_comm 1 i]

/-- The end of R156: the leftover bits, padded with zeros, are the last packed byte, if any are left. -/
theorem packResidual_nil (n : Nat) {f : Nat → Bool} {cnt : Nat} (hcnt : cnt < 8)
    (hend : ∀ p, cnt ≤ p → f p = false) :
    packResidual n [] (packMsb f cnt) cnt = (List.range (bytesForBits cnt)).map (packByte f) := by
  rw [packResidual]
  split
  next h0 => rw [h0]; rfl
  next hpos =>
    have hlast : packMsb f cnt * 2 ^ (8 - cnt) = packMsb f (8 * 0 + 8) := by
      rw [← packMsb_of_end hend, show cnt + (8 - cnt) = 8 * 0 + 8 by omega]
    rw [hlast, ofNat_packMsb_eq_packByte, show bytesForBits cnt = 1 by unfold bytesForBits; omega]
    rfl

/-- One chunk of R156: with the leftover bits it gives the next packed bytes and leaves fewer than eight bits. -/
theorem packResidual_cons {n c : Nat} (cs : List Nat) {f : Nat → Bool} {cnt q r : Nat}
    (hsplit : cnt + n = 8 * q + r) (hr : r < 8) (hc : c % 2 ^ n = packMsb (fun t => f (cnt + t)) n) :
    packResidual n (c :: cs) (packMsb f cnt) cnt =
      (List.range q).map (packByte f) ++ packResidual n cs (packMsb (fun t => f (8 * q + t)) r) r := by
  have hacc : packMsb f cnt * 2 ^ n + c % 2 ^ n = packMsb f (8 * q + r) := by
    rw [hc, ← packMsb_add, hsplit]
  have hbytes : completeBytes (packMsb f (8 * q + r)) r q = (List.range q).map (packByte f) := by
    simpa using completeBytes_packMsb f r q 0
  rw [packResidual, hacc, show (cnt + n) / 8 = q by omega, show (cnt + n) % 8 = r by omega, hbytes, packMsb_mod]

/-- With `cnt` leftover bits of a sequence and the chunks that continue it, R156 gives the packed bytes of the whole
sequence. -/
theorem packResidual_eq_packByte {n : Nat} (cs : List Nat) {f : Nat → Bool} {cnt : Nat} (hcnt : cnt < 8)
    (hcs : ∀ j (h : j < cs.length), cs[j] % 2 ^ n = packMsb (fun t => f (cnt + j * n + t)) n)
    (hend : ∀ p, cnt + cs.length * n ≤ p → f p = false) :
    packResidual n cs (packMsb f cnt) cnt =
      (List.range (bytesForBits (cnt + cs.length * n))).map (packByte f) := by
  induction cs generalizing f cnt with
  | nil => simpa using packResidual_nil n hcnt (by simpa using hend)
  | cons c cs ih =>
    obtain ⟨q, r, hsplit, hr⟩ : ∃ q r, cnt + n = 8 * q + r ∧ r < 8 :=
      ⟨(cnt + n) / 8, (cnt + n) % 8, by omega, by omega⟩
    have hlen : cnt + (c :: cs).length * n = 8 * q + (r + cs.length * n) := by
      rw [List.length_cons, Nat.succ_mul]
      omega
    have hcount : bytesForBits (8 * q + (r + cs.length * n)) = q + bytesForBits (r + cs.length * n) := by
      unfold bytesForBits
      omega
    have hnext : ∀ j (h : j < cs.length), cs[j] % 2 ^ n = packMsb (fun t => f (8 * q + (r + j * n + t))) n := by
      intro j hj
      refine (hcs (j + 1) (Nat.succ_lt_succ hj)).trans (packMsb_congr fun t _ => congrArg f ?_)
      rw [Nat.succ_mul]
      omega
    rw [packResidual_cons cs hsplit hr (by simpa using hcs 0 (Nat.zero_lt_succ _)),
      ih hr hnext fun p hp => hend _ (by omega), hlen, hcount, List.range_add, List.map_append, List.map_map]
    exact congrArg (_ ++ ·) (List.map_congr_left fun i _ => packByte_shift f q i)

/-- The chunk of width `n` taken from element `j` is the next `n` bits of the concatenated chunks (R155). -/
theorem State.chunk_eq_packMsb (s : State) {n j : Nat} (hj : j < s.lengthS) :
    (s.bufS.read j).toNat % 2 ^ n = packMsb (fun t => s.chunkBit n (0 + j * n + t)) n := by
  rw [← Nat.mod_mod, ← packMsb_testBit_rev]
  refine packMsb_congr fun t ht => ?_
  have hnext : j * n + t < (j + 1) * n := (Nat.add_lt_add_left ht _).trans_eq (Nat.succ_mul j n).symm
  have hp : j * n + t < s.lengthS * n := hnext.trans_le (Nat.mul_le_mul_right n hj)
  have hdiv : (j * n + t) / n = j := Nat.div_eq_of_lt_le (Nat.le_add_right _ t) hnext
  have hmod : (j * n + t) % n = t := (Nat.mul_add_mod_self_right j n t).trans (Nat.mod_eq_of_lt ht)
  rw [Nat.zero_add, State.chunkBit, decide_eq_true hp, Bool.true_and, hdiv, hmod]

theorem State.residualBytes_eq (s : State) (n : Nat) :
    s.residualBytes n = (List.range (bytesForBits (s.lengthS * n))).map (packByte (s.chunkBit n)) := by
  have h := packResidual_eq_packByte (n := n) ((List.range s.lengthS).map fun j => (s.bufS.read j).toNat)
    (f := s.chunkBit n) (cnt := 0) (by decide)
    (fun j hj => by
      rw [List.getElem_map, List.getElem_range]
      exact s.chunk_eq_packMsb (by simpa using hj))
    (fun p hp => by
      rw [List.length_map, List.length_range, Nat.zero_add] at hp
      rw [State.chunkBit, decide_eq_false (Nat.not_lt.mpr hp), Bool.false_and])
  rwa [List.length_map, List.length_range, Nat.zero_add] at h

/-- Settles O37: both packers give the packed bytes of the concatenated chunks. -/
theorem residualPackerAgrees : Obligations.ResidualPackerAgrees := by
  intro n s h1 h32 hp hcap
  refine ⟨s.packedChunks n, exec_fromchunks h1 h32 hcap, ?_⟩
  rw [State.packedChunks_lengthA hp hcap, State.residualBytes_eq]
  exact List.map_congr_left fun i hi => State.read_newA (List.mem_range.mp hi) _

end Sys2Proof.Machine

/-! The Arithmetic Engine (R180 to R189): the value each command leaves in A, the closed form of the multiplier loop,
the spec's serial and bit-scanning forms, and the laws that follow from the commands' own rules. -/

namespace Sys2Proof.Machine

/-! ## CMP -/

theorem orderingCode_of_lt {a b : Nat} (h : a < b) : orderingCode a b = 0xFFFFFFFFFFFFFFFF#64 := if_pos h

theorem orderingCode_of_eq {a b : Nat} (h : a = b) : orderingCode a b = 0#64 :=
  (if_neg h.not_lt).trans (if_pos h)

theorem orderingCode_of_gt {a b : Nat} (h : b < a) : orderingCode a b = 1#64 :=
  (if_neg h.not_gt).trans (if_neg h.ne')

/-- Settles O27: RES is the code of the ordering. -/
theorem cmpOrdersValues : Obligations.CmpOrdersValues :=
  ⟨decodeOfEncode .cmp rfl, fun s =>
    ⟨_, rfl, onlyStatus_flag_res s _ _, rfl, orderingCode_of_lt, orderingCode_of_eq, orderingCode_of_gt⟩⟩

/-! ## ADD and SUB -/

theorem addCarry_iff {a b W : Nat} : addCarry a b W = true ↔ 2 ^ W ≤ a + b := decide_eq_true_iff

theorem subBorrow_iff {a b : Nat} : subBorrow a b = true ↔ a < b := decide_eq_true_iff

/-- Taking the difference back to a natural number loses nothing: a remainder is not negative (R183). -/
theorem subValue_cast (a b W : Nat) : (subValue a b W : Int) = ((a : Int) - (b : Int)) % (2 ^ W : Int) := by
  have hpos : (0 : Int) < ((2 ^ W : Nat) : Int) := by exact_mod_cast Nat.two_pow_pos W
  rw [subValue, Int.toNat_of_nonneg (Int.emod_nonneg _ hpos.ne'), Nat.cast_pow, Nat.cast_ofNat]

theorem subValue_lt (a b W : Nat) : subValue a b W < 2 ^ W := by
  have hpos : (0 : Int) < 2 ^ W := Int.pow_pos (by decide)
  have hlt := Int.emod_lt_of_pos ((a : Int) - b) hpos
  rw [← subValue_cast] at hlt
  exact_mod_cast hlt

/-- The reduced difference is the number below `2^W` that makes up what `b` takes away, by borrows of `2^W` (R183). -/
theorem subValue_eq_of_add_eq {a b W r c : Nat} (hr : r < 2 ^ W) (h : r + b = a + c * 2 ^ W) :
    subValue a b W = r := by
  have hdiff : (a : Int) - b = r - c * 2 ^ W := by
    have h' : (r : Int) + b = a + c * 2 ^ W := by exact_mod_cast h
    linarith
  have hcast := subValue_cast a b W
  rw [hdiff, Int.sub_mul_emod_self_right, Int.emod_eq_of_lt (Int.natCast_nonneg r) (by exact_mod_cast hr)] at hcast
  exact_mod_cast hcast

/-- Settles O28: the stored value is the reduced sum. -/
theorem addWithCarry : Obligations.AddWithCarry :=
  ⟨decodeOfEncode .add rfl, fun s =>
    ⟨_, rfl, onlyBytesOfA_storeA s _ _, rfl,
      State.valBE_storeValueA_of_eq rfl (Nat.mod_lt _ (Nat.two_pow_pos _)), addCarry_iff⟩⟩

/-- Settles O29: the stored value is the reduced integer difference. -/
theorem subWithBorrow : Obligations.SubWithBorrow :=
  ⟨decodeOfEncode .sub rfl, fun s =>
    ⟨_, rfl, onlyBytesOfA_storeA s _ _, rfl,
      (congrArg Nat.cast (State.valBE_storeValueA_of_eq rfl (subValue_lt _ _ _))).trans (subValue_cast _ _ _),
      subBorrow_iff⟩⟩

/-! ## MUL

The loop meets the bits of the multiplier from the highest down. After the bits from `i` up, its accumulator and
overflow are the closed form for the multiplier with the bits below `i` cleared. -/

/-- The accumulator and overflow of the closed form of R184. -/
def mulClosed (a W b : Nat) : Nat × Bool := (a * b % 2 ^ W, decide (2 ^ W ≤ a * b ∨ 2 ^ W ≤ b))

/-- SHL's value, with no case for `n >= W`: nothing is left of `v * 2^n` then (R101). -/
theorem shlValue_eq_mod (v W n : Nat) : shlValue v W n = v * 2 ^ n % 2 ^ W := by
  rcases Nat.lt_or_ge n W with hlt | hle
  · exact shlValue_of_lt hlt
  · rw [shlValue_of_le hle, Nat.mod_eq_zero_of_dvd (Dvd.dvd.mul_left (Nat.pow_dvd_pow 2 hle) v)]

/-- SHL overflows when the width is shifted out or the shifted value does not fit (R101). -/
theorem shlOverflow_iff {v W n : Nat} : shlOverflow v W n = true ↔ W ≤ n ∨ 2 ^ W ≤ v * 2 ^ n := by
  rcases Nat.lt_or_ge n W with hlt | hle
  · have hW : 2 ^ W = 2 ^ (W - n) * 2 ^ n := by rw [← Nat.pow_add, Nat.sub_add_cancel hlt.le]
    rw [shlOverflow_iff_of_lt hlt, Nat.div_ne_zero_iff, hW, Nat.mul_le_mul_right_iff (Nat.two_pow_pos n)]
    simp [hlt.not_ge]
  · simp [shlOverflow_of_le hle, hle]

/-- Below `2^W` there is room for bit `i` beside a number with no bit at or below `i`. -/
theorem add_two_pow_lt {c W i : Nat} (hc : 2 ^ (i + 1) ∣ c) (hlt : c < 2 ^ W) (hi : i < W) : c + 2 ^ i < 2 ^ W := by
  have hgap : 2 ^ (i + 1) ≤ 2 ^ W - c :=
    Nat.le_of_dvd (Nat.sub_pos_of_lt hlt) (Nat.dvd_sub (Nat.pow_dvd_pow 2 hi) hc)
  have hpow : 2 ^ i < 2 ^ (i + 1) := Nat.pow_lt_pow_right (by decide) (Nat.lt_succ_self i)
  omega

/-- One set bit: where the shift and the sum stay in range the closed form is exact, and where one of them does not
the longer multiplier overflows too. -/
theorem mulStep_mulClosed (a W i : Nat) {c : Nat} (hc : 2 ^ (i + 1) ∣ c) :
    mulStep a W i (mulClosed a W c) = mulClosed a W (c + 2 ^ i) := by
  refine Prod.ext ?_ (Bool.eq_iff_iff.mpr ?_)
  · simp [mulStep, mulClosed, shlValue_eq_mod, Nat.mul_add]
  · simp only [mulStep, mulClosed, shlValue_eq_mod, Bool.or_eq_true, decide_eq_true_iff, shlOverflow_iff,
      addCarry_iff, Nat.mul_add]
    by_cases hfits : a * c < 2 ^ W ∧ c < 2 ^ W ∧ i < W ∧ a * 2 ^ i < 2 ^ W
    · obtain ⟨hac, hc', hi, hai⟩ := hfits
      have hnext := add_two_pow_lt hc hc' hi
      rw [Nat.mod_eq_of_lt hac, Nat.mod_eq_of_lt hai]
      omega
    · have hlong : W ≤ i → 2 ^ W ≤ 2 ^ i := Nat.pow_le_pow_right (by decide)
      omega

/-- Clearing one bit less of the multiplier adds that bit (R184). -/
theorem div_mul_two_pow_succ (b i : Nat) :
    b / 2 ^ i * 2 ^ i = b / 2 ^ (i + 1) * 2 ^ (i + 1) + (b.testBit i).toNat * 2 ^ i := by
  have hbit := Nat.div_add_mod (b / 2 ^ i) 2
  rw [← Nat.toNat_testBit, Nat.div_div_eq_div_mul, ← Nat.pow_succ] at hbit
  linear_combination 2 ^ i * hbit.symm

/-- Entered with the closed form for the bits from `i` up, the loop ends with the closed form (R184). -/
theorem mulLoop_mulClosed (a b W i : Nat) :
    mulLoop a b W i (mulClosed a W (b / 2 ^ i * 2 ^ i)) = mulClosed a W b := by
  induction i with
  | zero => simp [mulLoop]
  | succ i ih =>
    rw [mulLoop, mulStep_mulClosed a W i (Nat.dvd_mul_left _ _), ← ih, div_mul_two_pow_succ b i]
    cases b.testBit i <;> simp

/-- The loop over `n` bits that hold the whole multiplier gives the closed form (R184). -/
theorem mulResult_eq (a W : Nat) {b n : Nat} (hb : b < 2 ^ n) : mulResult a b W n = mulClosed a W b := by
  rw [← mulLoop_mulClosed a b W n, Nat.div_eq_of_lt hb, Nat.zero_mul]
  simp [mulResult, mulClosed]

/-- Settles O30: the loop runs over every bit that B has. -/
theorem mulHasClosedForm : Obligations.MulHasClosedForm := by
  refine ⟨decodeOfEncode .mul rfl, fun s => ⟨_, rfl, onlyBytesOfA_storeA s _ _, rfl, ?_, ?_⟩⟩
  · have hv := congrArg Prod.fst (mulResult_eq s.valA s.widthA s.valB_lt)
    exact State.valBE_storeValueA_of_eq hv (Nat.mod_lt _ (Nat.two_pow_pos _))
  · show (mulResult s.valA s.valB s.widthA (8 * s.lengthB)).2 = true ↔ _
    rw [mulResult_eq s.valA s.widthA s.valB_lt]
    exact decide_eq_true_iff

/-! ## DIV and REM -/

/-- Writing FLAG writes no byte. -/
theorem onlyBytesOfA_flag (s : State) (b : Bool) : OnlyBytesOfA s { s with flag := b } :=
  ⟨rfl, fun _ _ => rfl, SameB.refl s, SameS.refl s, ⟨rfl, rfl, rfl, rfl⟩, SameHost.refl s⟩

/-- What DIV and REM have in common: a zero divisor writes FLAG alone, any other stores a value that is at most `a`
and so fits (R186, R187). -/
theorem exec_divide {i : Instr} {s : State} {v : Nat} (hv : v ≤ s.valA)
    (hexec : exec i s = if s.valB = 0 then complete true s else complete false (s.storeValueA v)) :
    ∃ t, exec i s = .next t ∧ OnlyBytesOfA s t ∧ t.res = s.res ∧
      (s.valB = 0 → (∀ i, t.bufA.read i = s.bufA.read i) ∧ t.flag = true) ∧
      (s.valB ≠ 0 → valBE t.bufA s.lengthA = v ∧ t.flag = false) := by
  rw [hexec]
  split
  next hzero =>
    exact ⟨_, rfl, onlyBytesOfA_flag s true, rfl, fun _ => ⟨fun _ => rfl, rfl⟩, fun h => absurd hzero h⟩
  next hpos =>
    exact ⟨_, rfl, onlyBytesOfA_storeA s _ _, rfl, fun h => absurd h hpos,
      fun _ => ⟨State.valBE_storeValueA_of_eq rfl (hv.trans_lt s.valA_lt), rfl⟩⟩

/-- Settles O31: the quotient is at most the dividend. -/
theorem divQuotient : Obligations.DivQuotient :=
  ⟨decodeOfEncode .div rfl, fun _ => exec_divide (Nat.div_le_self _ _) rfl⟩

/-- Settles O32: the remainder is at most the dividend. -/
theorem remRemainder : Obligations.RemRemainder :=
  ⟨decodeOfEncode .rem rfl, fun _ => exec_divide (Nat.mod_le _ _) rfl⟩

/-! ## The laws of R189 -/

theorem OnlyBytesOfA.lengthA {s t : State} (h : OnlyBytesOfA s t) : t.lengthA = s.lengthA :=
  congrArg BitVec.toNat h.1

theorem OnlyBytesOfA.widthA {s t : State} (h : OnlyBytesOfA s t) : t.widthA = s.widthA :=
  congrArg (8 * ·) h.lengthA

theorem OnlyBytesOfA.sameB {s t : State} (h : OnlyBytesOfA s t) : SameB s t := by
  obtain ⟨_, _, hB, _⟩ := h
  exact hB

/-- The value of A after a command that keeps LEN_A. -/
theorem OnlyBytesOfA.valA {s t : State} (h : OnlyBytesOfA s t) : t.valA = valBE t.bufA s.lengthA :=
  congrArg (valBE t.bufA) h.lengthA

theorem SameB.valB {s t : State} (h : SameB s t) : t.valB = s.valB := by
  obtain ⟨hlen, hread⟩ := h
  show valBE t.bufB t.lenB.toNat = _
  rw [hlen]
  exact valBE_congr fun i _ => hread i

theorem SameB.trans {s t u : State} (h : SameB s t) (h' : SameB t u) : SameB s u := by
  obtain ⟨hlen, hread⟩ := h
  obtain ⟨hlen', hread'⟩ := h'
  exact ⟨hlen'.trans hlen, fun i => (hread' i).trans (hread i)⟩

theorem OnlyBytesOfA.trans {s t u : State} (h : OnlyBytesOfA s t) (h' : OnlyBytesOfA t u) : OnlyBytesOfA s u := by
  obtain ⟨hlen, hA, hB, ⟨hlenS, hS⟩, ⟨hf, hc, h0, h1⟩, hcfg, hrst, hpend, hrd⟩ := h
  obtain ⟨hlen', hA', hB', ⟨hlenS', hS'⟩, ⟨hf', hc', h0', h1'⟩, hcfg', hrst', hpend', hrd'⟩ := h'
  have hL : t.lengthA = s.lengthA := congrArg BitVec.toNat hlen
  exact ⟨hlen'.trans hlen, fun i hi => (hA' i (hL.trans_le hi)).trans (hA i hi), hB.trans hB',
    ⟨hlenS'.trans hlenS, fun j => (hS' j).trans (hS j)⟩,
    ⟨hf'.trans hf, hc'.trans hc, h0'.trans h0, h1'.trans h1⟩,
    ⟨hcfg'.trans hcfg, hrst'.trans hrst, hpend'.trans hpend, hrd'.trans hrd⟩⟩

/-- A is restored once its value is: the bytes beyond LEN_A were kept (R25). -/
theorem SameA.of_valBE_eq {s t : State} (h : OnlyBytesOfA s t) (hv : valBE t.bufA s.lengthA = s.valA) :
    SameA s t := by
  obtain ⟨hlen, hbeyond, _⟩ := h
  refine ⟨hlen, fun i => ?_⟩
  rcases Nat.lt_or_ge i s.lengthA with hin | hout
  · exact read_eq_of_valBE_eq hv hin
  · exact hbeyond i hout

/-- Settles O19: SHL then SHR by `n` multiplies and divides by `2^n` modulo `2^W`, and no bit is below `n`. -/
theorem shiftRoundTripClearsHighBits : Obligations.ShiftRoundTripClearsHighBits := by
  intro n s hn
  obtain ⟨_, hshl⟩ := shlShiftsLeft
  obtain ⟨_, hshr⟩ := shrShiftsRight
  obtain ⟨t, ht, hst, _, _, hin⟩ := hshl n s
  obtain ⟨u, hu, htu, _, _, hin'⟩ := hshr n t
  obtain ⟨hvt, _⟩ := hin hn
  obtain ⟨hvu, hflag⟩ := hin' (hn.trans_eq hst.widthA.symm)
  have hW : 2 ^ s.widthA = 2 ^ (s.widthA - n) * 2 ^ n := by rw [← Nat.pow_add, Nat.sub_add_cancel hn.le]
  have ha : t.valA = s.valA % 2 ^ (s.widthA - n) * 2 ^ n := by
    rw [hst.valA, hvt, hW, Nat.mul_mod_mul_right]
  refine ⟨t, u, ht, hu, ?_, htu.1.trans hst.1, ?_⟩
  · rw [← Bool.not_eq_true, hflag, ha, Nat.mul_mod_left]
    exact fun h => h rfl
  · rw [← hst.lengthA, hvu, ha, Nat.mul_div_cancel _ (Nat.two_pow_pos n)]

/-- Settles O33: modulo `2^W` the difference takes back the sum, and the value of A is below `2^W`. -/
theorem addThenSubRestoresA : Obligations.AddThenSubRestoresA := by
  intro s
  obtain ⟨_, hadd⟩ := addWithCarry
  obtain ⟨_, hsub⟩ := subWithBorrow
  obtain ⟨t, ht, hst, _, hsum, _⟩ := hadd s
  obtain ⟨u, hu, htu, _, hdiff, _⟩ := hsub t
  refine ⟨t, u, ht, hu, SameA.of_valBE_eq (hst.trans htu) ?_, hst.sameB.trans htu.sameB⟩
  have ha : (s.valA : Int) < 2 ^ s.widthA := by exact_mod_cast s.valA_lt
  rw [hst.lengthA, hst.widthA, hst.valA, hst.sameB.valB, hsum] at hdiff
  push_cast at hdiff
  rw [Int.emod_sub_emod, Int.add_sub_cancel, Int.emod_eq_of_lt (Int.natCast_nonneg _) ha] at hdiff
  exact_mod_cast hdiff

/-! ## The byte-serial forms of R182 and R183

After the last `k` bytes the result bytes hold a number `r` below `2^(8k)`, and one equation relates `r` and the carry
or borrow to the operands modulo `2^(8k)`. -/

/-- The bytes of a value, least significant last, as R182 and R183 produce them. -/
theorem completeBytes_eq_map (v L : Nat) : completeBytes v 0 L = (List.range L).map (bytesBE v L) := by
  induction L with
  | zero => rfl
  | succ L ih =>
    rw [completeBytes, ih, List.range_succ_eq_map, List.map_cons, List.map_map, Nat.zero_add]
    refine congrArg (_ :: ·) (List.map_congr_left fun i _ => ?_)
    rw [Function.comp_apply, bytesBE, bytesBE, show L + 1 - 1 - i.succ = L - 1 - i by omega]

/-- The bytes of a buffer are the bytes of its value (R9). -/
theorem map_read_eq_completeBytes (m : Memory 8) (L : Nat) :
    (List.range L).map (fun i => m.read i) = completeBytes (valBE m L) 0 L := by
  rw [completeBytes_eq_map]
  exact List.map_congr_left fun i hi => (bytesBE_valBE m (List.mem_range.mp hi)).symm

/-- The low `k` bytes depend on the value modulo `2^(8k)` only. -/
theorem completeBytes_congr {v w k : Nat} (h : v % 2 ^ (8 * k) = w % 2 ^ (8 * k)) :
    completeBytes v 0 k = completeBytes w 0 k := by
  induction k with
  | zero => rfl
  | succ k ih =>
    have hlow : ∀ x, x % 2 ^ (8 * (k + 1)) % 2 ^ (8 * k) = x % 2 ^ (8 * k) := fun x =>
      Nat.mod_mod_of_dvd x (Nat.pow_dvd_pow 2 (by omega))
    have htop : ∀ x, x % 2 ^ (8 * (k + 1)) / 2 ^ (8 * k) = x / 2 ^ (8 * k) % 256 := fun x => by
      rw [two_pow_eight_mul_succ, Nat.mod_mul_right_div_self]
    rw [completeBytes, completeBytes, ih (by rw [← hlow, h, hlow]), Nat.zero_add]
    refine congrArg (· :: _) (BitVec.eq_of_toNat_eq ?_)
    rw [BitVec.toNat_ofNat, BitVec.toNat_ofNat, show 2 ^ 8 = 256 from rfl, ← htop, h, htop]

/-- A new top byte does not change the bytes below it. -/
theorem completeBytes_cons (d : Nat) {r k : Nat} (hr : r < 2 ^ (8 * k)) :
    completeBytes (d * 2 ^ (8 * k) + r) 0 (k + 1) = BitVec.ofNat 8 d :: completeBytes r 0 k := by
  have htop : (d * 2 ^ (8 * k) + r) / 2 ^ (8 * k) = d := by
    rw [Nat.mul_comm, Nat.mul_add_div (Nat.two_pow_pos _), Nat.div_eq_of_lt hr, Nat.add_zero]
  rw [completeBytes, Nat.zero_add, htop, completeBytes_congr (Nat.mul_add_mod_self_right _ _ _)]

/-- `x` gives the `L` bytes of `v`, the least significant last. -/
def BytesOf (x : Nat → Nat) (L v : Nat) : Prop := ∀ k, k < L → x (L - 1 - k) = v / 2 ^ (8 * k) % 256

theorem bytesOf_read (m : Memory 8) (L : Nat) : BytesOf (fun i => (m.read i).toNat) L (valBE m L) := by
  intro k hk
  show (m.read (L - 1 - k)).toNat = _
  rw [← bytesBE_valBE m (show L - 1 - k < L by omega), bytesBE, BitVec.toNat_ofNat,
    show L - 1 - (L - 1 - k) = k by omega]

/-- The zero-extended B of R182 and R183 gives the bytes of `b`. -/
theorem State.bytesOf_serialOperand (s : State) : BytesOf s.serialOperand s.lengthA s.valB := by
  intro k hk
  rcases Nat.lt_or_ge k s.lengthB with hin | hout
  · have hpair : s.lengthA - 1 - k + s.lengthB = s.lengthB - 1 - k + s.lengthA := by omega
    rw [State.serialOperand, State.partnerBE_eq_some hpair]
    exact bytesOf_read s.bufB s.lengthB k hin
  · have hzero : s.valB < 2 ^ (8 * k) := s.valB_lt.trans_le (Nat.pow_le_pow_right (by decide) (by omega))
    rw [State.serialOperand, State.partnerBE_eq_none (by omega), Nat.div_eq_of_lt hzero]

theorem BytesOf.lt {x : Nat → Nat} {L v k : Nat} (h : BytesOf x L v) (hk : k < L) : x (L - 1 - k) < 256 :=
  (h k hk).trans_lt (Nat.mod_lt _ (by decide))

theorem BytesOf.mod_succ {x : Nat → Nat} {L v k : Nat} (h : BytesOf x L v) (hk : k < L) :
    v % 2 ^ (8 * (k + 1)) = x (L - 1 - k) * 2 ^ (8 * k) + v % 2 ^ (8 * k) := by
  rw [two_pow_eight_mul_succ, Nat.mod_mul, h k hk]
  ring

/-- A byte above `r` makes a number of one more byte. -/
theorem top_byte_lt {d r k : Nat} (hd : d < 256) (hr : r < 2 ^ (8 * k)) :
    d * 2 ^ (8 * k) + r < 2 ^ (8 * (k + 1)) := by
  rw [two_pow_eight_mul_succ]
  have hd' := Nat.mul_le_mul_right (2 ^ (8 * k)) (Nat.succ_le_of_lt hd)
  linarith

/-- One byte of the serial sum: its byte and carry are the sum of the bytes and the carry in (R182). -/
theorem addSerial_succ {x y : Nat → Nat} {L k c : Nat} {bs : List Byte} (h : addSerial x y L k = (c, bs)) :
    ∃ c' d, addSerial x y L (k + 1) = (c', BitVec.ofNat 8 d :: bs) ∧ d < 256 ∧
      d + 256 * c' = x (L - 1 - k) + y (L - 1 - k) + c :=
  ⟨_, _, by rw [addSerial, h], Nat.mod_lt _ (by decide), Nat.mod_add_div _ _⟩

/-- One byte of the serial difference: its byte and borrow make up what `y` and the borrow in take away (R183). -/
theorem subSerial_succ {x y : Nat → Nat} {L k c : Nat} {bs : List Byte} (h : subSerial x y L k = (c, bs))
    (hx : x (L - 1 - k) < 256) (hy : y (L - 1 - k) < 256) (hc : c ≤ 1) :
    ∃ c' d, subSerial x y L (k + 1) = (c', BitVec.ofNat 8 d :: bs) ∧ d < 256 ∧ c' ≤ 1 ∧
      d + y (L - 1 - k) + c = x (L - 1 - k) + 256 * c' := by
  refine ⟨_, _, by rw [subSerial, h], ?_⟩
  dsimp only
  split <;> omega

/-- The byte-serial sum: result bytes and carry together are the sum of the low bytes (R182). -/
theorem addSerial_spec {x y : Nat → Nat} {L a b : Nat} (hx : BytesOf x L a) (hy : BytesOf y L b) {k : Nat}
    (hk : k ≤ L) :
    ∃ c r, addSerial x y L k = (c, completeBytes r 0 k) ∧ r < 2 ^ (8 * k) ∧
      r + c * 2 ^ (8 * k) = a % 2 ^ (8 * k) + b % 2 ^ (8 * k) := by
  induction k with
  | zero => exact ⟨0, 0, rfl, by simp, by simp [Nat.mod_one]⟩
  | succ k ih =>
    obtain ⟨c, r, hlow, hr, heq⟩ := ih (Nat.le_of_succ_le hk)
    obtain ⟨c', d, hstep, hd, hsum⟩ := addSerial_succ hlow
    refine ⟨c', d * 2 ^ (8 * k) + r, ?_, top_byte_lt hd hr, ?_⟩
    · rw [hstep, completeBytes_cons _ hr]
    · rw [hx.mod_succ hk, hy.mod_succ hk, two_pow_eight_mul_succ]
      linear_combination 2 ^ (8 * k) * hsum + heq

/-- The byte-serial difference: result bytes and borrow make up what the low bytes of `b` take away (R183). -/
theorem subSerial_spec {x y : Nat → Nat} {L a b : Nat} (hx : BytesOf x L a) (hy : BytesOf y L b) {k : Nat}
    (hk : k ≤ L) :
    ∃ c r, subSerial x y L k = (c, completeBytes r 0 k) ∧ r < 2 ^ (8 * k) ∧ c ≤ 1 ∧
      r + b % 2 ^ (8 * k) = a % 2 ^ (8 * k) + c * 2 ^ (8 * k) := by
  induction k with
  | zero => exact ⟨0, 0, rfl, by simp, by simp, by simp [Nat.mod_one]⟩
  | succ k ih =>
    obtain ⟨c, r, hlow, hr, hc, heq⟩ := ih (Nat.le_of_succ_le hk)
    obtain ⟨c', d, hstep, hd, hc', hdiff⟩ := subSerial_succ hlow (hx.lt hk) (hy.lt hk) hc
    refine ⟨c', d * 2 ^ (8 * k) + r, ?_, top_byte_lt hd hr, hc', ?_⟩
    · rw [hstep, completeBytes_cons _ hr]
    · rw [hx.mod_succ hk, hy.mod_succ hk, two_pow_eight_mul_succ]
      linear_combination 2 ^ (8 * k) * hdiff + heq

/-- A B that is no longer than A has a value below `2^W`. -/
theorem State.valB_lt_of_le {s : State} (h : s.lengthB ≤ s.lengthA) : s.valB < 2 ^ s.widthA :=
  s.valB_lt.trans_le (Nat.pow_le_pow_right (by decide) (Nat.mul_le_mul_left 8 h))

/-- The carry and bytes of R182 over all the bytes of A. -/
theorem State.serialAdd_eq {s : State} (h : s.lengthB ≤ s.lengthA) :
    ∃ c, s.serialAdd = (c, completeBytes ((s.valA + s.valB) % 2 ^ s.widthA) 0 s.lengthA) ∧
      (c ≠ 0 ↔ 2 ^ s.widthA ≤ s.valA + s.valB) := by
  obtain ⟨c, r, hser, hr, heq⟩ :=
    addSerial_spec (bytesOf_read s.bufA s.lengthA) s.bytesOf_serialOperand (le_refl _)
  have hW : 8 * s.lengthA = s.widthA := rfl
  rw [hW] at hr heq
  rw [← State.valA, Nat.mod_eq_of_lt s.valA_lt, Nat.mod_eq_of_lt (State.valB_lt_of_le h)] at heq
  refine ⟨c, ?_, ?_⟩
  · rw [State.serialAdd, hser, ← heq, Nat.add_mul_mod_self_right, Nat.mod_eq_of_lt hr]
  · rw [← heq]
    refine ⟨fun hc => ?_, fun hle hc => ?_⟩
    · exact (Nat.le_mul_of_pos_left _ (Nat.pos_of_ne_zero hc)).trans (Nat.le_add_left _ r)
    · rw [hc, Nat.zero_mul, Nat.add_zero] at hle
      exact hr.not_ge hle

/-- The borrow and bytes of R183 over all the bytes of A. -/
theorem State.serialSub_eq {s : State} (h : s.lengthB ≤ s.lengthA) :
    ∃ c, s.serialSub = (c, completeBytes (subValue s.valA s.valB s.widthA) 0 s.lengthA) ∧
      (c ≠ 0 ↔ s.valA < s.valB) := by
  obtain ⟨c, r, hser, hr, hc, heq⟩ :=
    subSerial_spec (bytesOf_read s.bufA s.lengthA) s.bytesOf_serialOperand (le_refl _)
  have hW : 8 * s.lengthA = s.widthA := rfl
  rw [hW] at hr heq
  rw [← State.valA, Nat.mod_eq_of_lt s.valA_lt, Nat.mod_eq_of_lt (State.valB_lt_of_le h)] at heq
  refine ⟨c, by rw [State.serialSub, hser, subValue_eq_of_add_eq hr heq], ?_⟩
  rcases Nat.le_one_iff_eq_zero_or_eq_one.mp hc with rfl | rfl <;> omega

/-- Settles O34: the loops' equations over all the bytes say what ADD and SUB leave in A and in FLAG. -/
theorem serialAddSubAgree : Obligations.SerialAddSubAgree := by
  intro s hlen
  obtain ⟨_, hadd⟩ := addWithCarry
  obtain ⟨_, hsub⟩ := subWithBorrow
  obtain ⟨t, ht, _, _, hsum, hcarry⟩ := hadd s
  obtain ⟨u, hu, _, _, hdiff, hborrow⟩ := hsub s
  obtain ⟨c, hserial, hc⟩ := State.serialAdd_eq hlen
  obtain ⟨d, hserial', hd⟩ := State.serialSub_eq hlen
  have hdiff' : valBE u.bufA s.lengthA = subValue s.valA s.valB s.widthA := by
    exact_mod_cast hdiff.trans (subValue_cast _ _ _).symm
  refine ⟨t, u, ht, hu, ?_, ?_, ?_, ?_⟩
  · rw [map_read_eq_completeBytes, hsum, hserial]
  · rw [hserial, hcarry, hc]
  · rw [map_read_eq_completeBytes, hdiff', hserial']
  · rw [hserial', hborrow, hd]

/-! ## The long division of R188 -/

/-- Shifting the divisor right by 1 takes back one place of its alignment (R188). -/
theorem mul_two_pow_succ_div_two (d j : Nat) : d * 2 ^ (j + 1) / 2 = d * 2 ^ j := by
  rw [Nat.pow_succ, ← Nat.mul_assoc, Nat.mul_div_cancel _ (by decide)]

/-- The loop divides: entered with the divisor shifted left by `j - 1`, over `j` positions, on a running remainder
below the divisor shifted left by `j`, it adds the quotient to `q` and leaves the remainder. -/
theorem divideLoop_eq {d : Nat} (j : Nat) {r : Nat} (hr : r < d * 2 ^ j) (q : Nat) :
    divideLoop j (d * 2 ^ j / 2) r q = (q + r / d, r % d) := by
  induction j generalizing r q with
  | zero =>
    rw [Nat.pow_zero, Nat.mul_one] at hr
    rw [divideLoop, Nat.div_eq_of_lt hr, Nat.mod_eq_of_lt hr, Nat.add_zero]
  | succ j ih =>
    rw [Nat.pow_succ, ← Nat.mul_assoc] at hr
    rw [divideLoop, mul_two_pow_succ_div_two]
    split
    next hle =>
      have hq : 2 ^ j ≤ r / d := by
        rw [Nat.le_div_iff_mul_le (Nat.pos_of_ne_zero fun h => by simp [h] at hr), Nat.mul_comm]
        exact hle
      rw [ih (by omega), Nat.sub_mul_div, Nat.sub_mul_mod hle, Nat.add_assoc, Nat.add_sub_cancel' hq]
    next hlt => exact ih (Nat.lt_of_not_le hlt) q

theorem two_pow_trailingZeros_dvd (v W : Nat) : 2 ^ trailingZeros v W ∣ v := by
  induction W generalizing v with
  | zero => exact Nat.one_dvd v
  | succ w ih =>
    rw [trailingZeros]
    split
    next => exact Nat.one_dvd v
    next heven =>
      rw [Nat.pow_add, Nat.pow_one]
      exact (Nat.mul_dvd_mul_left 2 (ih (v / 2))).trans (Dvd.intro 1 (by omega))

theorem lt_two_pow_bitlen (v : Nat) : v < 2 ^ bitlen v := (bitlen_le_iff v _).mp (le_refl _)

theorem lt_bitlen_iff (v k : Nat) : k < bitlen v ↔ 2 ^ k ≤ v := by
  rw [← Nat.not_le, bitlen_le_iff, Nat.not_lt]

/-- The divisor aligned to the dividend's length, and doubled once more, exceeds it (R188). -/
theorem lt_aligned {a b : Nat} (hb : b ≠ 0) (hlen : bitlen b ≤ bitlen a) :
    a < b * 2 ^ (bitlen a - bitlen b + 1) := by
  have hpos : 0 < bitlen b := (lt_bitlen_iff b 0).mpr (Nat.one_le_iff_ne_zero.mpr hb)
  calc a < 2 ^ bitlen a := lt_two_pow_bitlen a
    _ = 2 ^ (bitlen b - 1) * 2 ^ (bitlen a - bitlen b + 1) := by rw [← Nat.pow_add]; congr 1; omega
    _ ≤ b * 2 ^ (bitlen a - bitlen b + 1) := Nat.mul_le_mul_right _ ((lt_bitlen_iff b _).mp (by omega))

/-- The loop on operands stripped of a common factor `2^t`, which then is restored to the remainder (R188). -/
theorem divideLoop_stripped {a b t : Nat} (hb : b ≠ 0) (hlen : bitlen b ≤ bitlen a) (ha : 2 ^ t ∣ a)
    (hb' : 2 ^ t ∣ b) :
    divideLoop (bitlen a - bitlen b + 1) (b / 2 ^ t * 2 ^ (bitlen a - bitlen b)) (a / 2 ^ t) 0 =
      (a / b, a % b / 2 ^ t) := by
  have hlt := lt_aligned hb hlen
  generalize bitlen a - bitlen b = diff at *
  obtain ⟨a, rfl⟩ := ha
  obtain ⟨b, rfl⟩ := hb'
  have hpos := Nat.two_pow_pos t
  rw [Nat.mul_assoc] at hlt
  rw [Nat.mul_div_cancel_left _ hpos, Nat.mul_div_cancel_left _ hpos, ← mul_two_pow_succ_div_two,
    divideLoop_eq _ (Nat.lt_of_mul_lt_mul_left hlt), Nat.mul_div_mul_left _ _ hpos, Nat.mul_mod_mul_left,
    Nat.mul_div_cancel_left _ hpos, Nat.zero_add]

/-- The long division gives the quotient and the true remainder, whatever the widths it counts trailing zeros in. -/
theorem longDivide_eq (a W WB : Nat) {b : Nat} (hb : b ≠ 0) : longDivide a b W WB = (a / b, a % b) := by
  unfold longDivide
  split
  next hshort =>
    have hlt : a < b := (lt_two_pow_bitlen a).trans_le ((lt_bitlen_iff b _).mp hshort)
    rw [Nat.div_eq_of_lt hlt, Nat.mod_eq_of_lt hlt]
  next hlong =>
    have ha : 2 ^ min (trailingZeros a W) (trailingZeros b WB) ∣ a :=
      (Nat.pow_dvd_pow 2 (Nat.min_le_left _ _)).trans (two_pow_trailingZeros_dvd a W)
    have hb' : 2 ^ min (trailingZeros a W) (trailingZeros b WB) ∣ b :=
      (Nat.pow_dvd_pow 2 (Nat.min_le_right _ _)).trans (two_pow_trailingZeros_dvd b WB)
    dsimp only
    rw [divideLoop_stripped hb (Nat.le_of_not_lt hlong) ha hb',
      Nat.div_mul_cancel ((Nat.dvd_mod_iff hb').mpr ha)]

/-- Settles O35: both are the quotient and remainder of `a` by `b`. -/
theorem longDivisionAgrees : Obligations.LongDivisionAgrees := by
  intro s hb
  obtain ⟨_, hdiv⟩ := divQuotient
  obtain ⟨_, hmod⟩ := remRemainder
  obtain ⟨t, ht, _, _, _, hq⟩ := hdiv s
  obtain ⟨u, hu, _, _, _, hr⟩ := hmod s
  obtain ⟨hquot, _⟩ := hq hb
  obtain ⟨hrem, _⟩ := hr hb
  exact ⟨t, u, ht, hu, by rw [longDivide_eq _ _ _ hb, hquot, hrem]⟩

end Sys2Proof.Machine

/-! Data movement (R220, R221): the states MOVAB and SWAP leave, what a read of A and of B gives there, and that SWAP
undoes itself. -/

namespace Sys2Proof.Machine

/-! ## MOVAB -/

/-- The state MOVAB leaves (R220). -/
def State.copiedAB (s : State) : State :=
  { s with bufB := s.bufB.fill s.lengthA s.bufA.read, lenB := s.lenA, flag := false }

theorem exec_movab (s : State) : exec .movab s = .next s.copiedAB := rfl

/-- B holds the bytes of A below LEN_A and keeps its own from there on (R25, R220). -/
theorem State.read_copiedAB (s : State) (i : Nat) :
    s.copiedAB.bufB.read i = if i < s.lengthA then s.bufA.read i else s.bufB.read i :=
  Memory.read_fill s.bufB s.lengthA s.bufA.read i

/-- Settles O38: MOVAB writes B, LEN_B and FLAG alone, and B by a fill. -/
theorem movabCopiesAToB : Obligations.MovabCopiesAToB :=
  ⟨decodeOfEncode .movab rfl, fun s =>
    ⟨s.copiedAB, exec_movab s, rfl, s.read_copiedAB, ⟨rfl, fun _ => rfl⟩, SameS.refl s, ⟨rfl, rfl, rfl, rfl⟩,
      SameHost.refl s, rfl, rfl⟩⟩

/-! ## SWAP -/

/-- The state SWAP leaves (R221). -/
def State.exchangedAB (s : State) : State :=
  { s with bufA := s.bufB, bufB := s.bufA, lenA := s.lenB, lenB := s.lenA, flag := false }

theorem exec_swap (s : State) : exec .swap s = .next s.exchangedAB := rfl

/-- Two exchanges restore the whole state but FLAG, which SWAP clears (R221). -/
theorem State.exchangedAB_exchangedAB (s : State) : s.exchangedAB.exchangedAB = { s with flag := false } := rfl

/-- Settles O39: SWAP exchanges the storage of A and B with their lengths, so a second SWAP changes FLAG at most. -/
theorem swapExchangesAAndB : Obligations.SwapExchangesAAndB := by
  refine ⟨decodeOfEncode .swap rfl, fun s => ?_⟩
  have htwice : exec .swap s.exchangedAB = .next { s with flag := false } :=
    (exec_swap s.exchangedAB).trans (congrArg _ s.exchangedAB_exchangedAB)
  exact ⟨s.exchangedAB, _, exec_swap s, htwice, rfl, rfl, fun _ => rfl, fun _ => rfl, SameS.refl s,
    ⟨rfl, rfl, rfl, rfl⟩, SameHost.refl s, rfl, rfl, ⟨rfl, fun _ => rfl⟩, SameB.refl s⟩

end Sys2Proof.Machine

/-! Faults (R230 to R237): which contract violation a command word raises and what record it leaves, and that the
faulted state lasts over every run without a change of RST. -/

namespace Sys2Proof.Machine

/-! ## The faulted state over a run -/

/-- A run of one step more is a step and then the run. -/
theorem run_succ_next_iff {M : Host.Core} {n : Nat} {s t : M.State} :
    M.run (n + 1) s = .next t ↔ ∃ u, M.step s = .next u ∧ M.run n u = .next t := by
  rw [Host.Core.run]
  cases M.step s <;> simp

/-- What every step keeps holds after any run. -/
theorem run_keeps {P : State → Prop} (hstep : ∀ {u v : State}, P u → step u = .next v → P v) {n : Nat}
    {s t : State} (hs : P s) (h : Host.Core.run Sys2Proof.core n s = .next t) : P t := by
  induction n generalizing s with
  | zero =>
    obtain rfl := Host.Outcome.next.inj h
    exact hs
  | succ n ih =>
    obtain ⟨u, hu, hrun⟩ := run_succ_next_iff.mp h
    exact ih (hstep hs hu) hrun

/-- `t` is `s` but for the word the host read last and for events of `s` that are pending no more: what a faulted
engine can become without a change of RST (R58, R235). -/
def FrozenFrom (s t : State) : Prop :=
  ∃ rest d, rest ⊆ s.pending ∧ t = { s with pending := rest, rdata := d }

theorem FrozenFrom.refl (s : State) : FrozenFrom s s := ⟨s.pending, s.rdata, List.Subset.refl _, rfl⟩

/-- A faulted engine performs a read by giving a word to the host and a write by doing nothing (R58). -/
theorem perform_of_fault {e : HostEvent} {s t : State} (hf : s.fault = true) (he : ∀ level, e ≠ .rst level)
    (h : perform e s = .next t) : ∃ d, t = { s with rdata := d } := by
  rcases perform_next_cases h with ⟨r, rfl⟩ | ⟨r, w, _, hw, _⟩ | ⟨level, rfl, _⟩
  · exact ⟨_, rfl⟩
  · exact ⟨s.rdata, (Host.Outcome.next.inj ((hostWrite_of_fault s r w hf).symm.trans hw)).symm⟩
  · exact absurd rfl (he level)

/-- A step of an engine frozen since `s` leaves it frozen when no change of RST was pending in `s`. -/
theorem FrozenFrom.step {s u v : State} (hf : s.fault = true) (hrst : ∀ level, HostEvent.rst level ∉ s.pending)
    (h : FrozenFrom s u) (hstep : step u = .next v) : FrozenFrom s v := by
  obtain ⟨queue, d, hqueue, rfl⟩ := h
  rcases step_eq { s with pending := queue, rdata := d } with ⟨_, hidle⟩ | ⟨e, rest, hq, hperform⟩
  · obtain rfl := Host.Outcome.next.inj (hidle.symm.trans hstep)
    exact ⟨queue, d, hqueue, rfl⟩
  · obtain rfl : queue = e :: rest := hq
    obtain ⟨he, hrest⟩ := List.cons_subset.mp hqueue
    have hnot : ∀ level, e ≠ .rst level := fun level hlevel => hrst level (hlevel ▸ he)
    obtain ⟨d', rfl⟩ := perform_of_fault (s := { s with pending := rest, rdata := d }) hf hnot
      (hperform.symm.trans hstep)
    exact ⟨rest, d', hrest, rfl⟩

/-- Settles O45: every step keeps the engine frozen, and a frozen engine has all the items of the faulted one. -/
theorem faultPersistsWithoutReset : Obligations.FaultPersistsWithoutReset := by
  intro n s t hf hrst hrun
  obtain ⟨rest, d, _, rfl⟩ := run_keeps (FrozenFrom.step hf hrst) (FrozenFrom.refl s) hrun
  exact ⟨⟨rfl, fun _ => rfl⟩, SameB.refl s, SameS.refl s, rfl, rfl, rfl, rfl, rfl, rfl⟩

/-! ## The violations of BEOR and BITGET -/

theorem exec_beor_of_short {s : State} (h : s.lengthB < s.lengthA) :
    exec .beor s = commandFault .operandLength .beor s := if_pos h

theorem exec_bitget_of_past {s : State} {k : Nat} (h : s.widthA ≤ k) :
    exec (.bitget k) s = commandFault .bitIndex (.bitget k) s := if_pos h

/-! ## Contracts -/

theorem contract_beor_iff (s : State) : Contract .beor s = true ↔ s.lengthA ≤ s.lengthB := decide_eq_true_iff

theorem contract_bitget_iff (k : Nat) (s : State) : Contract (.bitget k) s = true ↔ k < s.widthA :=
  decide_eq_true_iff

theorem contract_chunks_iff (n : Nat) (ct : ChunkType) (s : State) :
    Contract (.chunks n ct) s = true ↔ 1 ≤ n ∧ n ≤ 32 ∧ n ≤ ChunkType.width ct := by
  simp [Contract, and_assoc]

/-- The chunks fit in MAXLEN bytes exactly when their bits fit in `8 * MAXLEN` bits (R155). -/
theorem contract_fromchunks_iff (n : Nat) (s : State) :
    Contract (.fromchunks n) s = true ↔ 1 ≤ n ∧ n ≤ 32 ∧ bytesForBits (s.lengthS * n) ≤ s.cfg.maxlen := by
  have hbytes : bytesForBits (s.lengthS * n) ≤ s.cfg.maxlen ↔ s.lengthS * n ≤ 8 * s.cfg.maxlen := by
    unfold bytesForBits
    omega
  simp [Contract, and_assoc, hbytes]

/-- A command that violates no contract keeps the fault record (R230): the four commands that can fault complete
under their contracts, and no other command writes the record. -/
theorem exec_sameFault_of_contract {i : Instr} {s : State} (h : Contract i s = true) :
    ∃ t, exec i s = .next t ∧ SameFault s t := by
  cases i with
  | beor =>
    have hlen := (contract_beor_iff s).mp h
    exact ⟨_, if_neg (Nat.not_lt.mpr hlen), rfl, rfl, rfl, rfl⟩
  | bitget k =>
    have hk := (contract_bitget_iff k s).mp h
    exact ⟨_, if_neg (Nat.not_le.mpr hk), rfl, rfl, rfl, rfl⟩
  | chunks n ct =>
    obtain ⟨h1, h32, hct⟩ := (contract_chunks_iff n ct s).mp h
    exact ⟨_, exec_chunks h1 h32 hct s, rfl, rfl, rfl, rfl⟩
  | fromchunks n =>
    obtain ⟨h1, h32, hcap⟩ := (contract_fromchunks_iff n s).mp h
    exact ⟨_, exec_fromchunks h1 h32 hcap, rfl, rfl, rfl, rfl⟩
  | div =>
    obtain ⟨t, ht, ⟨_, _, _, _, hfault, _⟩, _⟩ := divQuotient.2 s
    exact ⟨t, ht, hfault⟩
  | rem =>
    obtain ⟨t, ht, ⟨_, _, _, _, hfault, _⟩, _⟩ := remRemainder.2 s
    exact ⟨t, ht, hfault⟩
  | shl | shr | rev | not | beand | bexor | leand | leor | lexor | allz | allo | lzc | tzc | bits | frombits
  | cmp | add | sub | mul | movab | swap => exact ⟨_, rfl, rfl, rfl, rfl, rfl⟩

/-! ## Command words -/

/-- The fault of a command enters with the word that was written, since a legal word is the encoding of what it
decodes to (R88, R234). -/
theorem faultEntered_of_commandFault {w : Word} {i : Instr} {c : FaultCode} {s t : State}
    (ht : executeWord w s = .next t) (hdec : decode w = .ok i) (hexec : exec i s = commandFault c i s) :
    FaultEntered c.code w 0x00004#32 s t := by
  obtain ⟨_, henc⟩ := encodeOfDecode w i hdec
  have hnext : executeWord w s = .next (s.enterFault c w 0x00004#32) := by
    rw [executeWord_of_decode_ok hdec, hexec, commandFault_eq, henc]
  obtain rfl := Host.Outcome.next.inj (hnext.symm.trans ht)
  exact faultEntered_enterFault s c w _

/-- An illegal word enters ILLEGAL_CMD with the word (R87, R234). -/
theorem faultEntered_of_illegal {w : Word} {e : Illegal} {s t : State} (ht : executeWord w s = .next t)
    (hdec : decode w = .error e) : FaultEntered 1#4 w 0x00004#32 s t := by
  obtain rfl := Host.Outcome.next.inj ((executeWord_of_decode_error hdec s).symm.trans ht)
  exact faultEntered_enterFault s .illegalCmd w _

/-- The word of a command that violates no contract keeps the fault record (R230). -/
theorem sameFault_of_contract {w : Word} {i : Instr} {s t : State} (ht : executeWord w s = .next t)
    (hdec : decode w = .ok i) (h : Contract i s = true) : SameFault s t := by
  obtain ⟨u, hu, hfault⟩ := exec_sameFault_of_contract h
  obtain rfl := Host.Outcome.next.inj ((hu.symm.trans (executeWord_of_decode_ok hdec s).symm).trans ht)
  exact hfault

/-- Settles O43: each row of R232 is the violation its command checks, FROMCHUNKS checking the width first. -/
theorem commandFaultTable : Obligations.CommandFaultTable := by
  intro w s
  obtain ⟨t, ht⟩ := executeWord_next w s
  refine ⟨t, ht, fun e hdec => ?illegal, fun n ct hdec hbad => ?chunkWidth, fun n hdec hbad => ?packWidth,
    fun k hdec hpast => ?bitIndex, fun hdec hshort => ?operandLength, fun n hdec h1 h32 hlong => ?capacity,
    fun i hdec hcontract => ?completes⟩
  case illegal => exact faultEntered_of_illegal ht hdec
  case chunkWidth => exact faultEntered_of_commandFault ht hdec (exec_chunks_of_bad (by omega) s)
  case packWidth => exact faultEntered_of_commandFault ht hdec (exec_fromchunks_of_bad hbad s)
  case bitIndex => exact faultEntered_of_commandFault ht hdec (exec_bitget_of_past hpast)
  case operandLength => exact faultEntered_of_commandFault ht hdec (exec_beor_of_short hshort)
  case capacity => exact faultEntered_of_commandFault ht hdec (exec_fromchunks_of_long h1 h32 hlong)
  case completes => exact sameFault_of_contract ht hdec hcontract

end Sys2Proof.Machine

/-! Reset and stray accesses (R50, R65, R260): the accesses that stop before the window map is asked, and the state the
release of RST leaves. -/

namespace Sys2Proof.Machine

/-! ## Accesses that stop -/

/-- The window accepts no access while RST is asserted (R260). -/
theorem locate_of_rst {s : State} (hrst : s.rst = true) (master addr size : Nat) :
    locate s master addr size = .refused .accessInReset := if_pos hrst

/-- A second master is refused once RST is released (R65). -/
theorem locate_secondHost {s : State} {master : Nat} (hrst : s.rst = false) (hmaster : master ≠ 0)
    (addr size : Nat) : locate s master addr size = .refused .secondHost := by
  unfold locate
  rw [if_neg (ne_true_of_eq_false hrst), if_pos hmaster]

/-- An address of the one host outside the window's bytes is a fault (R50). -/
theorem locate_outside {s : State} {addr : Nat} (hrst : s.rst = false)
    (hout : addr < s.cfg.base ∨ s.cfg.base + windowBytes ≤ addr) (size : Nat) :
    locate s 0 addr size = .fault .outsideWindow := by
  unfold locate
  rw [if_neg (ne_true_of_eq_false hrst), if_neg (not_not.mpr rfl), if_pos hout]

/-- Settles O54: a read or a write stops as the search for its slot does, and that search depends on RST, the
master and the address alone in these three cases. -/
theorem strayAccessesStop : Obligations.StrayAccessesStop := by
  intro s e master addr size rest he hq
  obtain ⟨k, hk, _⟩ := perform_access he (s.withPending rest)
  have hstep : step s = atSlot (locate (s.withPending rest) master addr size) k :=
    (step_of_pending hq).trans hk
  rw [hstep]
  refine ⟨fun hrst => ?inReset, fun hrst hmaster => ?secondHost, fun hrst hmaster hout => ?outside⟩
  case inReset => exact congrArg (atSlot · k) (locate_of_rst (s := s.withPending rest) hrst master addr size)
  case secondHost =>
    exact congrArg (atSlot · k) (locate_secondHost (s := s.withPending rest) hrst hmaster addr size)
  case outside =>
    subst hmaster
    exact congrArg (atSlot · k) (locate_outside (s := s.withPending rest) hrst hout size)

/-! ## The release of RST -/

/-- The release of an asserted RST resets (R260). -/
theorem State.driveRst_release {s : State} (hrst : s.rst = true) : s.driveRst false = s.afterReset :=
  if_pos (by rw [hrst]; rfl)

/-- The step that performs the release of an asserted RST leaves the reset state of the engine, with the events
that follow it still pending. -/
theorem step_release {s : State} {rest : List HostEvent} (hrst : s.rst = true)
    (hq : s.pending = .rst false :: rest) : step s = .next (s.withPending rest).afterReset :=
  (step_of_pending hq).trans
    (congrArg Host.Outcome.next (State.driveRst_release (s := s.withPending rest) hrst))

/-- Settles O56: the items of the state after the release are those of `State.reset`, whose values are R37's. -/
theorem releaseOfRstResets : Obligations.ReleaseOfRstResets := fun s rest hrst hq =>
  ⟨(s.withPending rest).afterReset, step_release hrst hq, rfl, rfl, rfl, resetValues⟩

end Sys2Proof.Machine
